-- ==== Sys2Proof/Word.lean ====
section
/-! DEFINITION. The bit vectors the unit moves whole (`00_scope.md` R10, `20_memory.md` R46). -/

namespace Sys2Proof

/-- The packed value LAT calls Address: 256 bits, bit `k` being absolute bit offset `k` (`10_state.md` R20). -/
abbrev Addr := BitVec 256

/-- One `Int` lane: `IW` = 64 bits, two's complement (`00_scope.md` R7, `30_encoding.md` R65). -/
abbrev Lane := BitVec 64

/-- A count field, `CNTW` = 8 bits, unsigned (`00_scope.md` R7, `30_encoding.md` R65). -/
abbrev Cnt := BitVec 8

/-- The flat command word, `CMDW` = 2060 bits (`30_encoding.md` R62). -/
abbrev CmdWord := BitVec 2060

/-- The flat response word, `RSPW` = 1305 bits (`30_encoding.md` R66). -/
abbrev RspWord := BitVec 1305

end Sys2Proof
end

