-- ==== Sys2Proof/Config.lean ====
section
/-! DEFINITION. What is fixed for the machine: the parameters of `00_scope.md` R6 and R7, and the values the spec leaves
free. -/

namespace Sys2Proof.Config

/-- Bits per coordinate (`00_scope.md` R6). -/
abbrev coordBits : Nat := 20

/-- The largest coordinate, 2^20 - 1 (`00_scope.md` R6). -/
abbrev coordMax : Nat := 1048575

/-- The largest dimension count (`00_scope.md` R6); also `N_LANES`, the coordinate lanes of a command or response (R7). -/
abbrev maxDims : Nat := 12

/-- The width of the header (`00_scope.md` R6). -/
abbrev hdrBits : Nat := 4

/-- The width of an Address (`00_scope.md` R6). -/
abbrev addrBits : Nat := 256

/-- The bound value that means "no bound on that side" (`00_scope.md` R7, `44_predicates.md` R139; the spec's decision
D23). -/
abbrev rangeSentinel : Int := -1

/-- The two ways a host could lay a word out as bytes. -/
inductive ByteOrder where
  | leastSignificantFirst
  | mostSignificantFirst
  deriving DecidableEq, Repr, Inhabited

/-- `BYTE_ORDER`, left OPEN by the spec and read by no rule (`20_memory.md` R44, D18; log 7): nothing in the model reads
it. -/
opaque byteOrder : ByteOrder

/-- FREE VALUE (log 8): what `rsp` carries at the n-th edge when `rsp_valid = 0` (`10_state.md` R35: "unspecified";
`93_implementation_defined.md` U8: "any value"). -/
opaque rspWhileNotValid : Nat → RspWord

/-- FREE VALUE (log 16): which of the values written to one cell without an order stays there: at the n-th edge, for cell `i`
(`70_reset_and_hazards.md` R196: "holding either value (a race); it must never pick one"; U6). -/
opaque raceWinner : Nat → Nat → Nat

end Sys2Proof.Config
end

