-- ==== Sys2Proof/Syntax.lean ====
section
/-! DEFINITION. The commands, one constructor per row of spec/opcode_table.json, each with exactly the fields the command
reads (`30_encoding.md` R63). -/

namespace Sys2Proof

/-- One command. A list operand holds the lanes the command reads, `min(n, 12)` of them (`30_encoding.md` R63); the count
`n` itself is kept because it can exceed 12. -/
inductive Instr where
  /-- ENCODE: `n` = len(coords), the lanes of the coordinates. -/
  | encode (n : Cnt) (coords : List Lane)
  /-- DECODE: the address. -/
  | decode (a : Addr)
  /-- DECODE_BUF: `n` = the capacity of the caller's buffer, the address. -/
  | decodeBuf (n : Cnt) (a : Addr)
  /-- DIMS: the address. -/
  | dims (a : Addr)
  /-- AT: the receiver, the index. -/
  | atIndex (a : Addr) (i : Lane)
  /-- ISZERO: the receiver. -/
  | isZero (a : Addr)
  /-- APPEND: `n` = len(extra), the receiver, the lanes of the extra coordinates. -/
  | append (n : Cnt) (a : Addr) (extra : List Lane)
  /-- SLICE: the receiver, `from`, `to`. -/
  | slice (a : Addr) (lo hi : Lane)
  /-- WITH: the receiver, the index, the new value. -/
  | withCoord (a : Addr) (i value : Lane)
  /-- EQUAL: `self`, `other`. -/
  | equal (a b : Addr)
  /-- CONTAINS: `self`, `other`. -/
  | contains (a b : Addr)
  /-- INRANGE: `n` = the number of pairs, the receiver, the `(min, max)` pairs. -/
  | inRange (n : Cnt) (a : Addr) (pairs : List (Lane × Lane))
  /-- Opcode 12, no command (`30_encoding.md` R71). -/
  | illegal12
  /-- Opcode 13, no command (R71). -/
  | illegal13
  /-- Opcode 14, no command (R71). -/
  | illegal14
  /-- Opcode 15, no command (R71). -/
  | illegal15
  deriving DecidableEq, Repr

end Sys2Proof
end

