-- ==== Sys2Proof/WellFormed.lean ====
section
/-! DEFINITION. Which terms of `Instr` stand for command words. -/

namespace Sys2Proof

/-- The number of lanes (or pairs) a command with count `n` reads: `min(n, 12)` (`30_encoding.md` R63). -/
def lanesRead (n : Cnt) : Nat := min n.toNat Config.maxDims

/-- A command with a list operand carries exactly the lanes it reads (`30_encoding.md` R63); every other term stands for a
command as it is. -/
def Instr.wellFormed : Instr → Bool
  | .encode n coords => coords.length == lanesRead n
  | .append n _ extra => extra.length == lanesRead n
  | .inRange n _ pairs => pairs.length == lanesRead n
  | .decode _ => true
  | .decodeBuf _ _ => true
  | .dims _ => true
  | .atIndex _ _ => true
  | .isZero _ => true
  | .slice _ _ _ => true
  | .withCoord _ _ _ => true
  | .equal _ _ => true
  | .contains _ _ => true
  | .illegal12 => true
  | .illegal13 => true
  | .illegal14 => true
  | .illegal15 => true

end Sys2Proof
end

