-- ==== Sys2Proof/Decode.lean ====
section
/-! DEFINITION. The command word (`30_encoding.md` R62 to R65, R69): decoding, total on every 2060-bit word, and the
encoder written from the same field table. -/

namespace Sys2Proof

/-! The fields of `cmd` (`30_encoding.md` R62). -/

/-- Field `op`, bits 3:0. -/
def cmdOp (w : CmdWord) : BitVec 4 := w.extractLsb' 0 4

/-- Field `n`, bits 11:4. -/
def cmdN (w : CmdWord) : Cnt := w.extractLsb' 4 8

/-- Field `a`, bits 267:12. -/
def cmdA (w : CmdWord) : Addr := w.extractLsb' 12 256

/-- Field `b`, bits 523:268. -/
def cmdB (w : CmdWord) : Addr := w.extractLsb' 268 256

/-- Lane `v[k]`, bits 587 + 64k : 524 + 64k. -/
def cmdV (w : CmdWord) (k : Nat) : Lane := w.extractLsb' (524 + 64 * k) 64

/-- The lanes `v[0 .. count-1]`. -/
def cmdLanes (w : CmdWord) (count : Nat) : List Lane := (List.range count).map (cmdV w)

/-- The pairs `(v[2k], v[2k+1])`, `0 ≤ k < count` (`30_encoding.md` R63, INRANGE). -/
def cmdPairs (w : CmdWord) (count : Nat) : List (Lane × Lane) :=
  (List.range count).map fun k => (cmdV w (2 * k), cmdV w (2 * k + 1))

/-- The decoder: the opcode selects the command (`30_encoding.md` R64), the command's fields are the ones it reads
(R63), every other bit is ignored (R69). -/
def decode (w : CmdWord) : Instr :=
  match (cmdOp w).toNat with
  | 0 => .encode (cmdN w) (cmdLanes w (lanesRead (cmdN w)))
  | 1 => .decode (cmdA w)
  | 2 => .decodeBuf (cmdN w) (cmdA w)
  | 3 => .dims (cmdA w)
  | 4 => .atIndex (cmdA w) (cmdV w 0)
  | 5 => .isZero (cmdA w)
  | 6 => .append (cmdN w) (cmdA w) (cmdLanes w (lanesRead (cmdN w)))
  | 7 => .slice (cmdA w) (cmdV w 0) (cmdV w 1)
  | 8 => .withCoord (cmdA w) (cmdV w 0) (cmdV w 1)
  | 9 => .equal (cmdA w) (cmdB w)
  | 10 => .contains (cmdA w) (cmdB w)
  | 11 => .inRange (cmdN w) (cmdA w) (cmdPairs w (lanesRead (cmdN w)))
  | 12 => .illegal12
  | 13 => .illegal13
  | 14 => .illegal14
  | _ => .illegal15

/-- Why a bit pattern is no command word. -/
inductive DecodeError where
  /-- The pattern does not fit the 2060 wires of `cmd` (`30_encoding.md` R60). -/
  | tooWide
  deriving DecidableEq, Repr

/-- Decoding a number of any size: a number that fits the 2060 wires is a command (`30_encoding.md` R64: "every 2060-bit
word is a command"), a larger one is refused by name (log 14). -/
def decodeNat (w : Nat) : Except DecodeError Instr :=
  if w < 2 ^ 2060 then .ok (decode (BitVec.ofNat 2060 w)) else .error .tooWide

/-- The instruction the decoder reads from the opcode-table word `w` of `nbits` bits; the bits above `nbits` are zero. -/
def decodeTableWord (nbits w : Nat) : Option Instr :=
  match decodeNat (w % 2 ^ nbits) with
  | .ok i => some i
  | .error _ => none

/-! The encoder. -/

/-- The opcode of a command (`30_encoding.md` R64). -/
def Instr.opcode : Instr → BitVec 4
  | .encode _ _ => 0
  | .decode _ => 1
  | .decodeBuf _ _ => 2
  | .dims _ => 3
  | .atIndex _ _ => 4
  | .isZero _ => 5
  | .append _ _ _ => 6
  | .slice _ _ _ => 7
  | .withCoord _ _ _ => 8
  | .equal _ _ => 9
  | .contains _ _ => 10
  | .inRange _ _ _ => 11
  | .illegal12 => 12
  | .illegal13 => 13
  | .illegal14 => 14
  | .illegal15 => 15

/-- A field `x` standing at bit `lo` of a word of `w` bits, every other bit zero. -/
def placeField (w lo : Nat) {n : Nat} (x : BitVec n) : BitVec w := x.setWidth w <<< lo

/-- Lanes standing one after the other from bit `lo` up. -/
def placeLanes (w : Nat) : Nat → List Lane → BitVec w
  | _, [] => 0#w
  | lo, x :: xs => placeField w lo x ||| placeLanes w (lo + 64) xs

/-- The flat command word of the five kinds of field (`30_encoding.md` R62). -/
def packCmd (op : BitVec 4) (n : Cnt) (a b : Addr) (v : List Lane) : CmdWord :=
  placeField 2060 0 op ||| placeField 2060 4 n ||| placeField 2060 12 a ||| placeField 2060 268 b ||| placeLanes 2060 524 v

/-- The lanes of a list of pairs, `v[2k] = min`, `v[2k+1] = max` (`30_encoding.md` R63). -/
def pairLanes : List (Lane × Lane) → List Lane
  | [] => []
  | p :: ps => p.1 :: p.2 :: pairLanes ps

/-- The word of a command; every field it does not read is zero (`30_encoding.md` R73). -/
def encode (i : Instr) : CmdWord :=
  match i with
  | .encode n coords => packCmd i.opcode n 0 0 coords
  | .decode a => packCmd i.opcode 0 a 0 []
  | .decodeBuf n a => packCmd i.opcode n a 0 []
  | .dims a => packCmd i.opcode 0 a 0 []
  | .atIndex a idx => packCmd i.opcode 0 a 0 [idx]
  | .isZero a => packCmd i.opcode 0 a 0 []
  | .append n a extra => packCmd i.opcode n a 0 extra
  | .slice a lo hi => packCmd i.opcode 0 a 0 [lo, hi]
  | .withCoord a idx value => packCmd i.opcode 0 a 0 [idx, value]
  | .equal a b => packCmd i.opcode 0 a b []
  | .contains a b => packCmd i.opcode 0 a b []
  | .inRange n a pairs => packCmd i.opcode n a 0 (pairLanes pairs)
  | .illegal12 => packCmd i.opcode 0 0 0 []
  | .illegal13 => packCmd i.opcode 0 0 0 []
  | .illegal14 => packCmd i.opcode 0 0 0 []
  | .illegal15 => packCmd i.opcode 0 0 0 []

end Sys2Proof
end

