-- ==== Sys2Proof/Machine/State.lean ====
section
/-! DEFINITION. What the machine holds: the response slot (`10_state.md` R29), and the world at the unit's pins (the
host's drive of the inputs, the decode buffer, the responses the host has received). -/

namespace Sys2Proof.Machine

/-- Which address operand an error record names (`60_exceptions.md` R166: 0 for `a`, 1 for `b`). -/
inductive Operand where
  | a
  | b
  deriving DecidableEq, Repr

/-- The record of an error (`30_encoding.md` R68, `60_exceptions.md` R161 to R167). The constant fields `min`, `max` of
LAT's records are put in by the packing. -/
inductive ErrorRecord where
  /-- Status 1, `{requested, max=12}` (R161). -/
  | dimensionLimitExceeded (requested : Nat)
  /-- Status 2, `{index, value, min=0, max=1048575}` (R162). -/
  | coordinateOutOfRange (index : Nat) (value : Int)
  /-- Status 3, `{index, dims}` (R163). -/
  | indexOutOfRange (index : Int) (dims : Nat)
  /-- Status 4, `{needed, given}` (R164). -/
  | bufferTooSmall (needed given : Nat)
  /-- Status 5, `{from, to, dims}` (R165). -/
  | rangeInvalid (lo hi : Int) (dims : Nat)
  /-- Status 6, `{operand, header}` (R166; the spec's decision D13). -/
  | malformedAddress (operand : Operand) (header : Nat)
  /-- Status 7, `{op}` (R167; the spec's decision D14). -/
  | illegalOp (op : Nat)
  deriving DecidableEq, Repr

/-- The result of a command that succeeds (`30_encoding.md` R70). `tuple` and `bufWrites` have the same bits on the port
(`41_decoder.md` R103); which of the two it is, is the host's knowledge of the command it issued (log 4). -/
inductive Result where
  /-- `ra` of ENCODE, APPEND, SLICE, WITH. -/
  | address (ra : Addr)
  /-- The decoded coordinates of DECODE (R102). -/
  | tuple (coords : List Nat)
  /-- The decoded coordinates of DECODE_BUF: the writes to the caller's buffer (R103). -/
  | bufWrites (coords : List Nat)
  /-- `cnt` of DIMS. -/
  | count (cnt : Nat)
  /-- `r[0]` of AT. -/
  | coordinate (c : Nat)
  /-- `flag` of ISZERO, EQUAL, CONTAINS, INRANGE. -/
  | flag (value : Bool)
  deriving DecidableEq, Repr

/-- A response, as the sum `30_encoding.md` R70 recommends; its 1305 bits are `Response.word`. -/
inductive Response where
  | ok (result : Result)
  | err (record : ErrorRecord)
  deriving DecidableEq, Repr

/-- Writes to cells of the caller's decode buffer, `(i, v)` being `BufWrite(i, v)` (`20_memory.md` R49). -/
abbrev LaneWrites := List (Nat × Lane)

/-- What the world does at one rising edge of `clk`: what the host drives on the input pins (`30_encoding.md` R60), and what
is done to the decode buffer (`20_memory.md` R50, `70_reset_and_hazards.md` R196). Writes of one edge have no order among
them (log 5). -/
structure Edge where
  /-- `rst`, synchronous, active high. -/
  rst : Bool
  /-- `cmd_valid`. -/
  cmdValid : Bool
  /-- `cmd`; read only where `cmd_valid` is 1 (`93_implementation_defined.md` U8). -/
  cmd : CmdWord
  /-- `rsp_ready`. -/
  rspReady : Bool
  /-- Which of the received lanes not committed yet the host commits to its buffer: their places in `State.pending`, the one
  received at this edge included. "When and in what order the host commits the lanes into its buffer is the host's
  business" (R50). -/
  commit : List Nat := []
  /-- What others write to the same buffer: another unit's DECODE_BUF lanes, the host itself (R196; log 10). -/
  others : LaneWrites := []
  deriving DecidableEq, Repr

/-- The caller's decode buffer (`20_memory.md` R48): the cells whose content is known, cell numbers strictly rising. An
unlisted cell has no known content (log 6). -/
abbrev Buffer := List (Nat × Lane)

/-- The canonical form of a buffer: cell numbers strictly rising. -/
abbrev Buffer.wf (b : Buffer) : Prop := (b.map Prod.fst).Pairwise (· < ·)

/-- The machine. Only `rsp` is inside the unit (`10_state.md` R29 to R34). -/
structure State where
  /-- The response slot RSP: empty or full (R29). -/
  rsp : Option Response
  /-- What the host will drive at the coming edges, the next edge first (log 1). -/
  inputs : List Edge
  /-- The command word the host offered at the last edge and the unit has not taken (`70_reset_and_hazards.md` R198). -/
  offered : Option CmdWord
  /-- The caller's decode buffer, outside the unit (`20_memory.md` R48). -/
  buffer : Buffer
  /-- The lanes of DECODE_BUF responses that the host has received and not committed to the buffer, oldest first (R50,
  R196). -/
  pending : LaneWrites
  /-- The responses the host has received, oldest first (R29 RETIRE; log 9). -/
  received : List Response
  /-- How many edges have passed: the model's own field, the index of the free values (log 8, log 16). -/
  edges : Nat
  deriving DecidableEq, Repr

/-- The reasons the machine stops with a fault: none. Every failure of the unit is an error response, after which it goes
on (`60_exceptions.md` R160, R169, R170); there is no trap and no hang of the unit's own. -/
inductive Fault where
  deriving DecidableEq, Repr

/-- The reasons a step has no meaning. -/
inductive Refusal where
  /-- Raised by an arm of `exec` whose instruction has no meaning yet; no arm is left so. Safe. -/
  | notModelled (mnemonic : String)
  /-- Raised by `clockEdge`, with `rst` low (log 12), when the host changes or withdraws a command it has offered and the unit has not taken:
  "which of the offered words is executed is not defined by this spec; a model should refuse such a host"
  (`70_reset_and_hazards.md` R198, U7). Safe: nothing is claimed of such a run. -/
  | offerChanged
  deriving DecidableEq, Repr

/-- Right after reset: `RSP = empty` and "there is nothing else" in the unit (`10_state.md` R35, `70_reset_and_hazards.md`
R190). The world at the pins starts with nothing driven, received or known (DESIGN CHOICE, log 11). -/
def State.reset : State where
  rsp := none
  inputs := []
  offered := none
  buffer := []
  pending := []
  received := []
  edges := 0

end Sys2Proof.Machine
end

