-- ==== Sys2Proof/Machine/Operands.lean ====
section
/-! DEFINITION. Reading the operands of a command: the fields of an Address and the integers of the lanes. -/

namespace Sys2Proof.Machine

/-- `hdr(a) = uint(a[3:0])`, the dimension count (`10_state.md` R21). -/
def hdr (a : Addr) : Nat := (a.extractLsb' 0 4).toNat

/-- `4 + p*d + i`, the absolute bit offset of bit `p` of coordinate `i` (`10_state.md` R22). -/
abbrev offset (d p i : Nat) : Nat := 4 + p * d + i

/-- `Bit(a, k)`, the `bit_selector` (`20_memory.md` R43). -/
abbrev bitSelect (a : Addr) (k : Nat) : Bool := a.getLsbD k

/-- `coord(a, i)`, the `coordinate_extract` path: twenty bit reads at offsets `4 + p*d + i` (`10_state.md` R22,
`42_accessors.md` R112). Irreducible so that no tactic unfolds the sum by itself; its lemmas are in Laws/Bits.lean. -/
@[irreducible] def extractCoord (a : Addr) (i : Nat) : Nat :=
  ((List.range Config.coordBits).map fun p => (bitSelect a (offset (hdr a) p i)).toNat * 2 ^ p).sum

/-- Word `Wj` of an Address, `j = 0 .. 3` (`20_memory.md` R40; the spec's decision D17). -/
def addrWord (a : Addr) (j : Nat) : BitVec 64 := a.extractLsb' (64 * j) 64

/-- The Address of four words: `a[255:0]` = W3, W2, W1, W0 from the high bits down (`20_memory.md` R40). -/
def addrOfWords (w3 w2 w1 w0 : BitVec 64) : Addr := w3 ++ w2 ++ w1 ++ w0

/-- `sint(v)`, the signed integer of a lane (`00_scope.md` R9, `30_encoding.md` R65). -/
def sint (v : Lane) : Int := v.toInt

/-- `uint(n)`, the count of a count field (`30_encoding.md` R65). -/
def uint (n : Cnt) : Nat := n.toNat

/-- The integers of a list of lanes. -/
def sints (vs : List Lane) : List Int := vs.map sint

end Sys2Proof.Machine
end

