-- ==== Sys2Proof/Machine/Flags.lean ====
section
/-! DEFINITION. The conditions whose answer is `rsp.flag`. No flag persists (`10_state.md` R32). -/

namespace Sys2Proof.Machine

/-- "for every i < len(cs): cs[i] = 0" (`42_accessors.md` R113). -/
def allZero (cs : List Nat) : Bool := cs.all fun c => c == 0

/-- "for every k in 0..255: Bit(a, k) = Bit(b, k)" (`44_predicates.md` R135). -/
def sameBits (a b : Addr) : Bool :=
  (List.range Config.addrBits).all fun k => bitSelect a k == bitSelect b k

/-- Prefix containment of decoded tuples (`44_predicates.md` R137). -/
def prefixOf (sa sb : List Nat) : Bool :=
  if sa.length > sb.length then false
  else (List.range sa.length).all fun i => sa.getD i 0 == sb.getD i 0

/-- One pair against its coordinate: each bound is the sentinel or is kept, bounds inclusive (`44_predicates.md` R139; the
spec's decisions D22, D23). -/
def pairHolds (lo hi : Int) (c : Nat) : Bool :=
  !(lo != Config.rangeSentinel && decide ((c : Int) < lo)) && !(hi != Config.rangeSentinel && decide ((c : Int) > hi))

/-- "for k = 0 .. min(m, d) - 1: pair k applies to coordinate k" (`44_predicates.md` R139). -/
def pairsHold (m : Nat) (pairs : List (Lane × Lane)) (cs : List Nat) : Bool :=
  (List.range (min m cs.length)).all fun k =>
    pairHolds (sint (pairs.getD k (0, 0)).1) (sint (pairs.getD k (0, 0)).2) (cs.getD k 0)

end Sys2Proof.Machine
end

