-- ==== Sys2Proof/Machine/Ops.lean ====
section
/-! DEFINITION. The shared operations: encode and decode of Addresses, the checks, the two ways a command ends, the
decode buffer, and the transfers at the pins. -/

namespace Sys2Proof.Machine

/-! ## The encoder and the decoder function -/

/-- `A[k] <- 1`. -/
def setBit (A : Addr) (k : Nat) : Addr := A ||| BitVec.twoPow Config.addrBits k

/-- The inner loop of `Enc` (`40_encoder.md` R92): bit `p` of every coordinate. -/
def encRow (cs : List Nat) (p : Nat) (A : Addr) : Addr :=
  (List.range cs.length).foldl
    (fun A i => if (cs.getD i 0).testBit p then setBit A (offset cs.length p i) else A) A

/-- `Enc(cs)` (`40_encoder.md` R92), for at most 12 coordinates below 2^20. -/
def enc (cs : List Nat) : Addr :=
  (List.range Config.coordBits).foldl (fun A p => encRow cs p A)
    ((BitVec.ofNat Config.hdrBits cs.length).setWidth Config.addrBits)

/-- The inner loop of `Dec` (`41_decoder.md` R101): bit `p` into every coordinate. -/
def decRow (a : Addr) (p : Nat) (cs : List Nat) : List Nat :=
  (List.range (hdr a)).foldl
    (fun cs i => if bitSelect a (offset (hdr a) p i) then cs.modify i (· + 2 ^ p) else cs) cs

/-- `Dec(a)` (`41_decoder.md` R101), for a header of at most 12. -/
def dec (a : Addr) : List Nat :=
  (List.range Config.coordBits).foldl (fun cs p => decRow a p cs) (List.replicate (hdr a) 0)

/-! ## The checks -/

/-- `CheckAddr(a, which)` (`41_decoder.md` R100). -/
def checkAddr (a : Addr) (which : Operand) : Except ErrorRecord Unit :=
  if hdr a > Config.maxDims then .error (.malformedAddress which (hdr a)) else .ok ()

/-- `CheckAddr` and then `Dec`: how every decoding command begins (`41_decoder.md` R100, R101). -/
def decodeChecked (a : Addr) (which : Operand) : Except ErrorRecord (List Nat) := do
  checkAddr a which
  return dec a

/-- The element loop of `Validate`, from index `j` on: the lowest offender is reported (`40_encoder.md` R91; D21). -/
def checkCoords : Nat → List Int → Except ErrorRecord Unit
  | _, [] => .ok ()
  | j, c :: cs =>
    if c < 0 ∨ c > (Config.coordMax : Int) then .error (.coordinateOutOfRange j c) else checkCoords (j + 1) cs

/-- `Validate(L, cs)` (`40_encoder.md` R91): the length first, then the elements. -/
def validate (L : Nat) (cs : List Int) : Except ErrorRecord Unit :=
  if L > Config.maxDims then .error (.dimensionLimitExceeded L) else checkCoords 0 cs

/-- `Validate` and then `Enc`: how every command that builds an Address ends (`43_transformers.md` R120). -/
def encodeChecked (L : Nat) (cs : List Int) : Except ErrorRecord Result := do
  validate L cs
  return .address (enc (cs.map Int.toNat))

/-- The index check of AT and WITH (`60_exceptions.md` R163). -/
def checkIndex (i : Int) (d : Nat) : Except ErrorRecord Unit :=
  if i < 0 ∨ i ≥ (d : Int) then .error (.indexOutOfRange i d) else .ok ()

/-! ## How a command ends -/

/-- RSP receives a response (`10_state.md` R29 ISSUE, `60_exceptions.md` R169). -/
def State.setRsp (s : State) (r : Response) : State := { s with rsp := some r }

/-- `raise <Error>(fields)`, the unit's whole exception entry: RSP receives the error response and nothing else changes
(`60_exceptions.md` R160, R169). -/
def raise (e : ErrorRecord) (s : State) : Host.Outcome State Fault Refusal := .next (s.setRsp (.err e))

/-- `return <field> <- value`: RSP receives the result (`30_encoding.md` R70). -/
def succeed (r : Result) (s : State) : Host.Outcome State Fault Refusal := .next (s.setRsp (.ok r))

/-- A command ends with its result or with the first error it meets (`60_exceptions.md` R160, R168). -/
def complete (x : Except ErrorRecord Result) (s : State) : Host.Outcome State Fault Refusal :=
  match x with
  | .ok r => succeed r s
  | .error e => raise e s

/-! ## The decode buffer -/

/-- The known content of cell `i`. -/
def Buffer.read : Buffer → Nat → Option Lane
  | [], _ => none
  | (j, x) :: rest, i => if i = j then some x else Buffer.read rest i

/-- `BufWrite(i, v)`: cell `i` is replaced, whatever it held (`20_memory.md` R49). -/
def Buffer.write : Buffer → Nat → Lane → Buffer
  | [], i, v => [(i, v)]
  | (j, x) :: rest, i, v =>
    if i < j then (i, v) :: (j, x) :: rest
    else if i = j then (i, v) :: rest
    else (j, x) :: Buffer.write rest i v

/-- The writes of a decoded tuple: `BufWrite(i, zext_64(cs[i]))` (`20_memory.md` R49). -/
def tupleWrites (cs : List Nat) : LaneWrites := cs.zipIdx.map fun p => (p.2, BitVec.ofNat 64 p.1)

/-- The writes a response carries: those of a DECODE_BUF that succeeded, and no others (`20_memory.md` R48 to R50,
`30_encoding.md` R70). -/
def Response.writes : Response → LaneWrites
  | .ok (.bufWrites cs) => tupleWrites cs
  | .ok (.address _) => []
  | .ok (.tuple _) => []
  | .ok (.count _) => []
  | .ok (.coordinate _) => []
  | .ok (.flag _) => []
  | .err _ => []

/-- The values a set of writes has for cell `i`. -/
def valuesFor (ws : LaneWrites) (i : Nat) : List Lane := (ws.filter fun w => w.1 == i).map Prod.snd

/-- What stays in a cell after the given values were written to it without an order at the n-th edge: the value, if they are
all the same; otherwise one of them, and nothing says which (`70_reset_and_hazards.md` R196; log 16). -/
def raceValue (n i : Nat) : List Lane → Lane
  | [] => 0
  | v :: vs => if vs.all (· == v) then v else (v :: vs).getD (Config.raceWinner n i % (vs.length + 1)) v

/-- Writes land in the buffer at the n-th edge with no order among them: each written cell is replaced (`20_memory.md` R49),
a cell written more than once holds one of its values (R196). -/
def Buffer.commit (n : Nat) (b : Buffer) (ws : LaneWrites) : Buffer :=
  ws.foldl (fun b w => b.write w.1 (raceValue n w.1 (valuesFor ws w.1))) b

/-- The entries of a list at the given places. -/
def picked {α : Type} (places : List Nat) (l : List α) : List α :=
  (l.zipIdx.filter fun p => places.contains p.2).map Prod.fst

/-- The entries of a list at every other place. -/
def unpicked {α : Type} (places : List Nat) (l : List α) : List α :=
  (l.zipIdx.filter fun p => !places.contains p.2).map Prod.fst

/-! ## The pins -/

/-- What the world does at the next edge: the next entry of the host's list, and when the list has run out, an offer the host
still owes (`70_reset_and_hazards.md` R198) or nothing (log 1). -/
def State.pins (s : State) : Edge :=
  match s.inputs with
  | e :: _ => e
  | [] =>
    match s.offered with
    | some w => { rst := false, cmdValid := true, cmd := w, rspReady := false, commit := [], others := [] }
    | none => { rst := false, cmdValid := false, cmd := 0, rspReady := false, commit := [], others := [] }

/-- One edge has passed: its inputs are used up. -/
def State.passEdge (s : State) : State := { s with inputs := s.inputs.tail, edges := s.edges + 1 }

/-- The host breaks R198 at this edge: a command offered and not taken is withdrawn or changed. -/
def State.offerBroken (s : State) (e : Edge) : Bool :=
  match s.offered with
  | some w => !(e.cmdValid && e.cmd == w)
  | none => false

/-- After an edge at which no command is taken, a command on the pins stands as offered (R198). -/
def State.holdOffer (s : State) (e : Edge) : State := { s with offered := if e.cmdValid then some e.cmd else none }

/-- The offer is taken. -/
def State.takeOffer (s : State) : State := { s with offered := none }

/-- RESET: the slot is emptied, its response discarded; the command on the pins is ignored (`10_state.md` R29,
`70_reset_and_hazards.md` R190, R191; log 12). -/
def State.resetUnit (s : State) : State := { s with rsp := none, offered := none }

/-- RETIRE: the host receives the response, with the buffer writes it carries, and the slot is empty
(`10_state.md` R29, `20_memory.md` R50). This is the return from an error as from a result (`60_exceptions.md` R170). -/
def State.retire (s : State) (r : Response) : State :=
  { s with rsp := none, received := s.received ++ [r], pending := s.pending ++ r.writes }

/-- The writes that land in the buffer at an edge: the lanes the host commits and what others write. -/
def State.landing (s : State) (e : Edge) : LaneWrites := picked e.commit s.pending ++ e.others

/-- What an edge does to the decode buffer (`20_memory.md` R50, `70_reset_and_hazards.md` R196). The unit has no part in it:
it happens at every edge, whatever the unit does at it. -/
def State.touchBuffer (s : State) (e : Edge) : State :=
  { s with buffer := s.buffer.commit s.edges (s.landing e), pending := unpicked e.commit s.pending }

/-- `cmd_ready`, as it stands with `rst` at the given level (`30_encoding.md` R60, `70_reset_and_hazards.md` R191). -/
def State.cmdReady (s : State) (rst : Bool) : Bool := !rst && s.rsp.isNone

/-- `rsp_valid` (`30_encoding.md` R60). -/
def State.rspValid (s : State) : Bool := s.rsp.isSome

end Sys2Proof.Machine
end

