-- ==== Sys2Proof/Machine/Accessors.lean ====
section
/-! DEFINITION. `bit_selector` / `coordinate_extract`: DIMS, AT, ISZERO (`42_accessors.md`). -/

namespace Sys2Proof.Machine

/-- DIMS (`42_accessors.md` R110): a mask, with no header check (D32). -/
def execDims (a : Addr) (s : State) : Host.Outcome State Fault Refusal := succeed (.count (hdr a)) s

/-- AT (`42_accessors.md` R111). -/
def execAt (a : Addr) (i : Lane) (s : State) : Host.Outcome State Fault Refusal :=
  complete (do
    let cs ← decodeChecked a .a
    checkIndex (sint i) cs.length
    return .coordinate (cs.getD (sint i).toNat 0)) s

/-- ISZERO (`42_accessors.md` R113). -/
def execIsZero (a : Addr) (s : State) : Host.Outcome State Fault Refusal :=
  complete (do
    let cs ← decodeChecked a .a
    return .flag (allZero cs)) s

end Sys2Proof.Machine
end

