-- ==== Sys2Proof/Machine/Decoder.lean ====
section
/-! DEFINITION. `morton_decoder`: DECODE, DECODE_BUF (`41_decoder.md`). -/

namespace Sys2Proof.Machine

/-- DECODE (`41_decoder.md` R102). -/
def execDecode (a : Addr) (s : State) : Host.Outcome State Fault Refusal :=
  complete (do
    let cs ← decodeChecked a .a
    return .tuple cs) s

/-- The capacity check (`60_exceptions.md` R164). -/
def checkCapacity (needed given : Nat) : Except ErrorRecord Unit :=
  if given < needed then .error (.bufferTooSmall needed given) else .ok ()

/-- DECODE_BUF (`41_decoder.md` R103). -/
def execDecodeBuf (n : Cnt) (a : Addr) (s : State) : Host.Outcome State Fault Refusal :=
  complete (do
    checkAddr a .a
    checkCapacity (hdr a) (uint n)
    return .bufWrites (dec a)) s

end Sys2Proof.Machine
end

