-- ==== Sys2Proof/Machine/Encoder.lean ====
section
/-! DEFINITION. `morton_encoder`: ENCODE (`40_encoder.md`). -/

namespace Sys2Proof.Machine

/-- ENCODE (`40_encoder.md` R90). -/
def execEncode (n : Cnt) (coords : List Lane) (s : State) : Host.Outcome State Fault Refusal :=
  complete (encodeChecked (uint n) (sints coords)) s

end Sys2Proof.Machine
end

