-- ==== Sys2Proof/Machine/Illegal.lean ====
section
/-! DEFINITION. Opcodes 12 to 15, which select no operation: `raise IllegalOp(op)` whatever the other fields hold
(`30_encoding.md` R71, `60_exceptions.md` R167; the spec's decision D14). -/

namespace Sys2Proof.Machine

/-- Opcode 12. -/
def execIllegal12 (s : State) : Host.Outcome State Fault Refusal := raise (.illegalOp 12) s

/-- Opcode 13. -/
def execIllegal13 (s : State) : Host.Outcome State Fault Refusal := raise (.illegalOp 13) s

/-- Opcode 14. -/
def execIllegal14 (s : State) : Host.Outcome State Fault Refusal := raise (.illegalOp 14) s

/-- Opcode 15. -/
def execIllegal15 (s : State) : Host.Outcome State Fault Refusal := raise (.illegalOp 15) s

end Sys2Proof.Machine
end

