-- ==== Sys2Proof/Machine/Predicates.lean ====
section
/-! DEFINITION. `address_comparator`, `prefix_comparator`, `range_checker`: EQUAL, CONTAINS, INRANGE
(`44_predicates.md`). -/

namespace Sys2Proof.Machine

/-- EQUAL (`44_predicates.md` R135): the raw bits, with no header check (D32). -/
def execEqual (a b : Addr) (s : State) : Host.Outcome State Fault Refusal := succeed (.flag (sameBits a b)) s

/-- CONTAINS (`44_predicates.md` R137): operand `a` is checked before operand `b` (D24). -/
def execContains (a b : Addr) (s : State) : Host.Outcome State Fault Refusal :=
  complete (do
    let sa ← decodeChecked a .a
    let sb ← decodeChecked b .b
    return .flag (prefixOf sa sb)) s

/-- INRANGE (`44_predicates.md` R139). -/
def execInRange (n : Cnt) (a : Addr) (pairs : List (Lane × Lane)) (s : State) : Host.Outcome State Fault Refusal :=
  complete (do
    let cs ← decodeChecked a .a
    return .flag (pairsHold (uint n) pairs cs)) s

end Sys2Proof.Machine
end

