-- ==== Sys2Proof/Machine/Transformers.lean ====
section
/-! DEFINITION. `coordinate_replace_engine`, `append_engine`, `slice_engine`: APPEND, SLICE, WITH
(`43_transformers.md`). -/

namespace Sys2Proof.Machine

/-- The integers of a decoded tuple. -/
def ints (cs : List Nat) : List Int := cs.map Int.ofNat

/-- APPEND (`43_transformers.md` R121). -/
def execAppend (n : Cnt) (a : Addr) (extra : List Lane) (s : State) : Host.Outcome State Fault Refusal :=
  complete (do
    let cs ← decodeChecked a .a
    encodeChecked (cs.length + uint n) (ints cs ++ sints extra)) s

/-- The bounds check of SLICE (`60_exceptions.md` R165). -/
def checkRange (lo hi : Int) (d : Nat) : Except ErrorRecord Unit :=
  if 0 ≤ lo ∧ lo ≤ hi ∧ hi ≤ (d : Int) then .ok () else .error (.rangeInvalid lo hi d)

/-- `cs[from:to]` (`00_scope.md` R10). -/
def subSeq (cs : List Nat) (lo hi : Nat) : List Nat := (cs.take hi).drop lo

/-- SLICE (`43_transformers.md` R122, R120). -/
def execSlice (a : Addr) (lo hi : Lane) (s : State) : Host.Outcome State Fault Refusal :=
  complete (do
    let cs ← decodeChecked a .a
    checkRange (sint lo) (sint hi) cs.length
    let cs' := subSeq cs (sint lo).toNat (sint hi).toNat
    encodeChecked cs'.length (ints cs')) s

/-- WITH (`43_transformers.md` R123): the index check before the encoder's. -/
def execWith (a : Addr) (i value : Lane) (s : State) : Host.Outcome State Fault Refusal :=
  complete (do
    let cs ← decodeChecked a .a
    checkIndex (sint i) cs.length
    encodeChecked cs.length ((ints cs).set (sint i).toNat (sint value))) s

end Sys2Proof.Machine
end

