-- ==== Sys2Proof/Machine/Dispatch.lean ====
section
/-! DEFINITION. `Exec`: one arm per command (`30_encoding.md` R64). A meaning fills RSP; `clockEdge` takes a command only
while RSP is empty (log 13). -/

namespace Sys2Proof.Machine

def exec (i : Instr) (s : State) : Host.Outcome State Fault Refusal :=
  match i with
  | .encode n coords => Sys2Proof.Machine.execEncode n coords s
  | .decode a => Sys2Proof.Machine.execDecode a s
  | .decodeBuf n a => Sys2Proof.Machine.execDecodeBuf n a s
  | .dims a => Sys2Proof.Machine.execDims a s
  | .atIndex a idx => Sys2Proof.Machine.execAt a idx s
  | .isZero a => Sys2Proof.Machine.execIsZero a s
  | .append n a extra => Sys2Proof.Machine.execAppend n a extra s
  | .slice a lo hi => Sys2Proof.Machine.execSlice a lo hi s
  | .withCoord a idx value => Sys2Proof.Machine.execWith a idx value s
  | .equal a b => Sys2Proof.Machine.execEqual a b s
  | .contains a b => Sys2Proof.Machine.execContains a b s
  | .inRange n a pairs => Sys2Proof.Machine.execInRange n a pairs s
  | .illegal12 => Sys2Proof.Machine.execIllegal12 s
  | .illegal13 => Sys2Proof.Machine.execIllegal13 s
  | .illegal14 => Sys2Proof.Machine.execIllegal14 s
  | .illegal15 => Sys2Proof.Machine.execIllegal15 s

end Sys2Proof.Machine
end

