-- ==== Sys2Proof/Machine/Clock.lean ====
section
/-! DEFINITION. One rising edge of `clk` (`30_encoding.md` R60, `10_state.md` R29). -/

namespace Sys2Proof.Machine

/-- One rising edge with inputs `e`. `rst` comes first (`70_reset_and_hazards.md` R190, R191; log 12); a host that breaks R198 is
refused; with a response in the slot the edge is RETIRE or a wait; with the slot empty it is ISSUE or a wait
(`10_state.md` R29, `70_reset_and_hazards.md` R197). What happens to the decode buffer happens at every edge that has a next
state (R50, R196). -/
def clockEdge (e : Edge) (s : State) : Host.Outcome State Fault Refusal :=
  if e.rst then .next (s.passEdge.resetUnit.touchBuffer e)
  else if s.offerBroken e then .refused .offerChanged
  else
    match s.rsp with
    | some r =>
      if e.rspReady then .next (((s.passEdge.retire r).touchBuffer e).holdOffer e)
      else .next ((s.passEdge.touchBuffer e).holdOffer e)
    | none =>
      if e.cmdValid then exec (decode e.cmd) (s.passEdge.touchBuffer e).takeOffer else .next (s.passEdge.touchBuffer e)

/-- The edge at which the host offers the command word `w` (log 3). -/
def offerEdge (w : CmdWord) : Edge where
  rst := false
  cmdValid := true
  cmd := w
  rspReady := false
  commit := []
  others := []

end Sys2Proof.Machine
end

