-- ==== Sys2Proof/Machine/Step.lean ====
section
/-! DEFINITION. One step of the machine is one rising edge of `clk`. -/

namespace Sys2Proof.Machine

/-- One rising edge, with what the host drives at it. -/
def step (s : State) : Host.Outcome State Fault Refusal := clockEdge s.pins s

/-- `s` with the host offering the command word `w` (its bits above `nbits` zero) at the next edge, to a unit that is
ready: the slot empty and no other offer standing. The edges the host had planned come after it (log 3). -/
def State.withFetchWord (s : State) (nbits w : Nat) : State :=
  { s with
    rsp := none
    offered := none
    inputs := offerEdge (BitVec.ofNat 2060 (w % 2 ^ nbits)) :: s.inputs }

end Sys2Proof.Machine
end

