-- ==== Sys2Proof/Machine/Response.lean ====
section
/-! DEFINITION. The response word: its fields, which of them a response sets, and their packing (`30_encoding.md` R66 to
R68, R70). -/

namespace Sys2Proof.Machine

/-- The fields of a response (`30_encoding.md` R66). -/
structure RspFields where
  status : BitVec 4
  flag : Bool
  cnt : Cnt
  we : BitVec 12
  ra : Addr
  r : Vector Lane 12
  info : Vector Lane 4
  deriving DecidableEq, Repr

/-- Every field zero. -/
def zeroFields : RspFields where
  status := 0
  flag := false
  cnt := 0
  we := 0
  ra := 0
  r := Vector.replicate 12 0
  info := Vector.replicate 4 0

/-- The status code of an error (`30_encoding.md` R67). -/
def ErrorRecord.status : ErrorRecord → BitVec 4
  | .dimensionLimitExceeded _ => 1
  | .coordinateOutOfRange _ _ => 2
  | .indexOutOfRange _ _ => 3
  | .bufferTooSmall _ _ => 4
  | .rangeInvalid _ _ _ => 5
  | .malformedAddress _ _ => 6
  | .illegalOp _ => 7

/-- `sext_64(x)` (`00_scope.md` R9). -/
def sext (x : Int) : Lane := BitVec.ofInt 64 x

/-- The number of an operand (`60_exceptions.md` R166). -/
def Operand.number : Operand → Int
  | .a => 0
  | .b => 1

/-- The `info` lanes of an error (`30_encoding.md` R68). -/
def ErrorRecord.info : ErrorRecord → Vector Lane 4
  | .dimensionLimitExceeded requested => #v[sext requested, sext Config.maxDims, 0, 0]
  | .coordinateOutOfRange index value => #v[sext index, sext value, 0, sext Config.coordMax]
  | .indexOutOfRange index dims => #v[sext index, sext dims, 0, 0]
  | .bufferTooSmall needed given => #v[sext needed, sext given, 0, 0]
  | .rangeInvalid lo hi dims => #v[sext lo, sext hi, sext dims, 0]
  | .malformedAddress operand header => #v[sext operand.number, sext header, 0, 0]
  | .illegalOp op => #v[sext op, 0, 0, 0]

/-- `zext_64` of a coordinate (`00_scope.md` R9, `30_encoding.md` R66). -/
def coordLane (c : Nat) : Lane := BitVec.ofNat 64 c

/-- The fields a decoded tuple sets: `cnt`, `we`, `r`, lanes at and above `d` zero (`41_decoder.md` R102, R103; D19). -/
def tupleFields (cs : List Nat) : RspFields :=
  { zeroFields with
    cnt := BitVec.ofNat 8 cs.length
    we := BitVec.ofFnLE fun i : Fin 12 => decide (i.val < cs.length)
    r := Vector.ofFn fun i : Fin 12 => if i.val < cs.length then coordLane (cs.getD i.val 0) else 0 }

/-- The fields a result sets, every other one zero (`30_encoding.md` R70). -/
def Result.fields : Result → RspFields
  | .address ra => { zeroFields with ra := ra }
  | .tuple cs => tupleFields cs
  | .bufWrites cs => tupleFields cs
  | .count c => { zeroFields with cnt := BitVec.ofNat 8 c }
  | .coordinate c => { zeroFields with r := (Vector.replicate 12 0).set 0 (coordLane c) }
  | .flag value => { zeroFields with flag := value }

/-- The fields of a response; an error sets `status` and `info` only (`30_encoding.md` R70). -/
def Response.fields : Response → RspFields
  | .ok result => result.fields
  | .err record => { zeroFields with status := record.status, info := record.info }

/-- The flat response word (`30_encoding.md` R66). -/
def packRsp (f : RspFields) : RspWord :=
  placeField 1305 0 f.status ||| placeField 1305 4 (BitVec.ofBool f.flag) ||| placeField 1305 5 f.cnt |||
    placeField 1305 13 f.we ||| placeField 1305 25 f.ra ||| placeLanes 1305 281 f.r.toList |||
    placeLanes 1305 1049 f.info.toList

/-- The fields of a flat response word, as the host reads them (`30_encoding.md` R66). -/
def unpackRsp (w : RspWord) : RspFields where
  status := w.extractLsb' 0 4
  flag := w.getLsbD 4
  cnt := w.extractLsb' 5 8
  we := w.extractLsb' 13 12
  ra := w.extractLsb' 25 256
  r := Vector.ofFn fun k : Fin 12 => w.extractLsb' (281 + 64 * k.val) 64
  info := Vector.ofFn fun j : Fin 4 => w.extractLsb' (1049 + 64 * j.val) 64

/-- The 1305 bits of a response. -/
def Response.word (r : Response) : RspWord := packRsp r.fields

/-- The pins `rsp`: the response while `rsp_valid = 1`, a free value otherwise (`30_encoding.md` R60, `10_state.md` R35;
log 8). -/
def State.rspPins (s : State) : RspWord :=
  match s.rsp with
  | some r => r.word
  | none => Config.rspWhileNotValid s.edges

/-- The Formatter, host software (`45_formatter_host.md` R150; the spec's decision D31; log 15): the text of a decoded tuple. -/
def formatTuple (cs : List Nat) : String := "Addr[" ++ String.intercalate " " (cs.map toString) ++ "]"

/-- `toString(a)`: the host formats the response of a DECODE (R150); nothing for any other response. -/
def Response.format : Response → Option String
  | .ok (.tuple cs) => some (formatTuple cs)
  | .ok (.bufWrites _) => none
  | .ok (.address _) => none
  | .ok (.count _) => none
  | .ok (.coordinate _) => none
  | .ok (.flag _) => none
  | .err _ => none

end Sys2Proof.Machine
end

