-- ==== Sys2Proof/Safety.lean ====
section
/-! DEFINITION. What claims are stated in: canonical addresses, legal responses, the invariant of the machine, and the
commands taken along a run. -/

namespace Sys2Proof.Machine

/-- `Canonical(a)`: the header is at most 12 and no stray bit is set (`10_state.md` R26). -/
def Canonical (a : Addr) : Prop :=
  hdr a ≤ 12 ∧ ∀ k, 4 + 20 * hdr a ≤ k → k ≤ 255 → a.getLsbD k = false

/-- The tuple an address holds, read bit by bit by the formula of `10_state.md` R22. -/
def coordsOf (a : Addr) : List Nat := (List.range (hdr a)).map (extractCoord a)

/-- The integer lies in the coordinate domain (`10_state.md` R23). -/
abbrev InDomain (x : Int) : Prop := 0 ≤ x ∧ x ≤ 1048575

/-- `A` is the address of the integer sequence `cs`: canonical, and holding exactly `cs`. -/
def IsAddressOf (A : Addr) (cs : List Int) : Prop :=
  Canonical A ∧ (coordsOf A).map Int.ofNat = cs

/-- The integer is the value of some lane. -/
abbrev FitsLane (x : Int) : Prop := -2 ^ 63 ≤ x ∧ x < 2 ^ 63

/-- The responses the unit can give (`30_encoding.md` R70, `60_exceptions.md` R161 to R167, `40_encoder.md` R94). -/
def Response.Legal : Response → Prop
  | .ok (.address ra) => Canonical ra
  | .ok (.tuple cs) => cs.length ≤ 12 ∧ ∀ c ∈ cs, c ≤ 1048575
  | .ok (.bufWrites cs) => cs.length ≤ 12 ∧ ∀ c ∈ cs, c ≤ 1048575
  | .ok (.count c) => c ≤ 15
  | .ok (.coordinate c) => c ≤ 1048575
  | .ok (.flag _) => True
  | .err (.dimensionLimitExceeded requested) => 12 < requested ∧ requested ≤ 267
  | .err (.coordinateOutOfRange index value) => index < 12 ∧ ¬ InDomain value ∧ FitsLane value
  | .err (.indexOutOfRange index dims) => dims ≤ 12 ∧ ¬ (0 ≤ index ∧ index < dims) ∧ FitsLane index
  | .err (.bufferTooSmall needed given) => given < needed ∧ needed ≤ 12
  | .err (.rangeInvalid lo hi dims) =>
    dims ≤ 12 ∧ ¬ (0 ≤ lo ∧ lo ≤ hi ∧ hi ≤ (dims : Int)) ∧ FitsLane lo ∧ FitsLane hi
  | .err (.malformedAddress _ header) => 13 ≤ header ∧ header ≤ 15
  | .err (.illegalOp op) => 12 ≤ op ∧ op ≤ 15

/-- The invariant of the machine: every response waiting or received is one the unit can give, every lane waiting to be
committed is a coordinate for one of the cells 0 to 11 (`20_memory.md` R49), and the decode buffer keeps its canonical
form. -/
def State.Inv (s : State) : Prop :=
  (∀ r, s.rsp = some r → r.Legal) ∧ (∀ r ∈ s.received, r.Legal) ∧
    (∀ w ∈ s.pending, w.1 < 12 ∧ w.2.toNat ≤ 1048575) ∧ s.buffer.wf

/-- The command word transferred at the next edge, if one is: `cmd_valid = cmd_ready = 1` (`30_encoding.md` R60). -/
def State.taken (s : State) : Option CmdWord :=
  if s.pins.cmdValid && s.cmdReady s.pins.rst then some s.pins.cmd else none

/-- The command words taken at the next `k` edges, in order, as far as the run goes. -/
def takenIn : Nat → State → List CmdWord
  | 0, _ => []
  | k + 1, s =>
    match step s with
    | .next t => s.taken.toList ++ takenIn k t
    | .fault _ => []
    | .refused _ => []

/-- The response to a command word by itself: what a unit just out of reset answers (`10_state.md` R34). -/
def answer (w : CmdWord) : Option Response :=
  match exec (decode w) State.reset with
  | .next t => t.rsp
  | .fault _ => none
  | .refused _ => none

/-- Bit `k` of the command word is one the command `w` reads (`30_encoding.md` R62, R63, R69): the "reads" column of
spec/opcode_table.json, so the header alone for DIMS and the pairs below `min(n, hdr(a))` for INRANGE
(`44_predicates.md` R139). -/
def readsBit (w : CmdWord) (k : Nat) : Bool :=
  let op := (cmdOp w).toNat
  let m := min (cmdN w).toNat 12
  let lanes : Nat :=
    if op = 0 ∨ op = 6 then m
    else if op = 4 then 1
    else if op = 7 ∨ op = 8 then 2
    else if op = 11 then 2 * min (cmdN w).toNat (hdr (cmdA w))
    else 0
  decide (k < 4)
    || (decide (op = 0 ∨ op = 2 ∨ op = 6 ∨ op = 11) && decide (4 ≤ k ∧ k < 12))
    || (decide (op = 3) && decide (12 ≤ k ∧ k < 16))
    || (decide (op = 1 ∨ op = 2 ∨ op = 4 ∨ op = 5 ∨ op = 6 ∨ op = 7 ∨ op = 8 ∨ op = 9 ∨ op = 10 ∨ op = 11)
        && decide (12 ≤ k ∧ k < 268))
    || (decide (op = 9 ∨ op = 10) && decide (268 ≤ k ∧ k < 524))
    || decide (524 ≤ k ∧ k < 524 + 64 * lanes)

/-- The statuses a command can return (`60_exceptions.md` R176), the answer to an illegal opcode included. -/
def allowedStatus : Instr → List (BitVec 4)
  | .encode _ _ => [0, 1, 2]
  | .decode _ => [0, 6]
  | .decodeBuf _ _ => [0, 4, 6]
  | .dims _ => [0]
  | .atIndex _ _ => [0, 3, 6]
  | .isZero _ => [0, 6]
  | .append _ _ _ => [0, 1, 2, 6]
  | .slice _ _ _ => [0, 5, 6]
  | .withCoord _ _ _ => [0, 2, 3, 6]
  | .equal _ _ => [0]
  | .contains _ _ => [0, 6]
  | .inRange _ _ _ => [0, 6]
  | .illegal12 => [7]
  | .illegal13 => [7]
  | .illegal14 => [7]
  | .illegal15 => [7]

end Sys2Proof.Machine
end

