-- ==== Sys2Proof/Certificates/Slice0/Obligations.lean ====
section
/-! DEFINITION. The statements about LATTICE-CORE, for the provers. "D<n>" in a docstring is a decision of the spec
(`92_eei_decisions.md`); "log n" is notes/assumptions/n.md. -/

open Sys2Proof Sys2Proof.Machine

/-! ## Encoding -/

/-- Seven command words of `95_test_vectors.md` part 3, written out there bit by bit from R62, decode to the commands they
stand for. -/
def Obligations.SpecWordsDecodeToTheirCommands : Prop :=
  decode 0x353001 = .decode 0x353 ∧
  decode 0xE001 = .decode 0xE ∧
  decode 0x6BA83005 = .isZero 0x6BA83 ∧
  decode (3 <<< 652 ||| 2 <<< 588 ||| 1 <<< 524 ||| 0x30) = .encode 3 [1, 2, 3] ∧
  decode (99 <<< 588 ||| 1 <<< 524 ||| 0x353008) = .withCoord 0x353 1 99 ∧
  decode (0x353 <<< 268 ||| 0x9200A) = .contains 0x92 0x353 ∧
  decode 0xF63D = .illegal13

/-- Decoding the word of a well-formed command gives the command back, for every command and every operand value: no bit of
an encoding is dropped (R62, R63). -/
def Obligations.DecodeOfEncodeIsTheCommand : Prop :=
  ∀ i : Instr, i.wellFormed = true → decode (encode i) = i

/-- Every 2060-bit word is a command (R64), and the term the decoder gives carries exactly the lanes the command reads. -/
def Obligations.EveryWordDecodesToAWellFormedCommand : Prop :=
  ∀ w : CmdWord, (decode w).wellFormed = true ∧ (decode w).opcode = cmdOp w

/-- The response does not depend on a bit the command does not read (R69, U13; D11). -/
def Obligations.UnreadBitsDoNotChangeTheResponse : Prop :=
  ∀ (w w' : CmdWord) (s : State), (∀ k, k < 2060 → readsBit w k = true → w'.getLsbD k = w.getLsbD k) →
    exec (decode w') s = exec (decode w) s

/-- Every field of a response stands at its place in the response word and nowhere else is anything (R66; D8). -/
def Obligations.ResponseFieldsStandAtTheirBits : Prop :=
  ∀ f : RspFields,
    (packRsp f).extractLsb' 0 4 = f.status ∧ (packRsp f).getLsbD 4 = f.flag ∧
    (packRsp f).extractLsb' 5 8 = f.cnt ∧ (packRsp f).extractLsb' 13 12 = f.we ∧
    (packRsp f).extractLsb' 25 256 = f.ra ∧
    (∀ k : Fin 12, (packRsp f).extractLsb' (281 + 64 * k) 64 = f.r[k]) ∧
    (∀ j : Fin 4, (packRsp f).extractLsb' (1049 + 64 * j) 64 = f.info[j])

/-- The word of an error response determines its record: the host can tell what failed without anything else (R68, R160;
the layout is D8, D10). -/
def Obligations.ErrorWordDeterminesItsRecord : Prop :=
  ∀ e e' : ErrorRecord, (Response.err e).Legal → (Response.err e').Legal →
    (Response.err e).word = (Response.err e').word → e = e'

/-- An error response carries its status and its record and nothing else (R67, R68, R70; the numbers are D10). -/
def Obligations.ErrorResponseFields : Prop :=
  (∀ e : ErrorRecord,
    (Response.err e).fields.status ≠ 0 ∧ (Response.err e).fields.flag = false ∧ (Response.err e).fields.cnt = 0 ∧
    (Response.err e).fields.we = 0 ∧ (Response.err e).fields.ra = 0 ∧ ∀ k : Fin 12, (Response.err e).fields.r[k] = 0) ∧
  (∀ n : Nat, (Response.err (.dimensionLimitExceeded n)).fields.status = 1 ∧
    (Response.err (.dimensionLimitExceeded n)).fields.info = #v[BitVec.ofInt 64 n, 12, 0, 0]) ∧
  (∀ (i : Nat) (v : Int), (Response.err (.coordinateOutOfRange i v)).fields.status = 2 ∧
    (Response.err (.coordinateOutOfRange i v)).fields.info = #v[BitVec.ofInt 64 i, BitVec.ofInt 64 v, 0, 1048575]) ∧
  (∀ (i : Int) (d : Nat), (Response.err (.indexOutOfRange i d)).fields.status = 3 ∧
    (Response.err (.indexOutOfRange i d)).fields.info = #v[BitVec.ofInt 64 i, BitVec.ofInt 64 d, 0, 0]) ∧
  (∀ needed given : Nat, (Response.err (.bufferTooSmall needed given)).fields.status = 4 ∧
    (Response.err (.bufferTooSmall needed given)).fields.info =
      #v[BitVec.ofInt 64 needed, BitVec.ofInt 64 given, 0, 0]) ∧
  (∀ (lo hi : Int) (d : Nat), (Response.err (.rangeInvalid lo hi d)).fields.status = 5 ∧
    (Response.err (.rangeInvalid lo hi d)).fields.info =
      #v[BitVec.ofInt 64 lo, BitVec.ofInt 64 hi, BitVec.ofInt 64 d, 0]) ∧
  (∀ h : Nat, (Response.err (.malformedAddress .a h)).fields.status = 6 ∧
    (Response.err (.malformedAddress .a h)).fields.info = #v[0, BitVec.ofInt 64 h, 0, 0] ∧
    (Response.err (.malformedAddress .b h)).fields.status = 6 ∧
    (Response.err (.malformedAddress .b h)).fields.info = #v[1, BitVec.ofInt 64 h, 0, 0]) ∧
  (∀ op : Nat, (Response.err (.illegalOp op)).fields.status = 7 ∧
    (Response.err (.illegalOp op)).fields.info = #v[BitVec.ofInt 64 op, 0, 0, 0])

/-- A successful response sets the fields of its command and every other field is zero (R70; the layout is D8, D11):
`ra` alone, `cnt` alone, `r[0]` alone, `flag` alone; the tuple fields are `TupleResponseFields`. -/
def Obligations.ResultResponseFields : Prop :=
  (∀ A : Addr, (Response.ok (.address A)).fields = ⟨0, false, 0, 0, A, Vector.replicate 12 0, Vector.replicate 4 0⟩) ∧
  (∀ c : Nat, (Response.ok (.count c)).fields =
    ⟨0, false, BitVec.ofNat 8 c, 0, 0, Vector.replicate 12 0, Vector.replicate 4 0⟩) ∧
  (∀ c : Nat, (Response.ok (.coordinate c)).fields =
    ⟨0, false, 0, 0, 0, #v[BitVec.ofNat 64 c, 0, 0, 0, 0, 0, 0, 0, 0, 0, 0, 0], Vector.replicate 4 0⟩) ∧
  (∀ b : Bool, (Response.ok (.flag b)).fields = ⟨0, b, 0, 0, 0, Vector.replicate 12 0, Vector.replicate 4 0⟩)

/-- The response of a decoded tuple, DECODE's and DECODE_BUF's alike: the count, a write enable for each coordinate lane,
the coordinates, and zero in every other lane and field (R70, R102, R103; the zero lanes are D19). -/
def Obligations.TupleResponseFields : Prop :=
  ∀ cs : List Nat,
    (Response.ok (.bufWrites cs)).word = (Response.ok (.tuple cs)).word ∧
    (Response.ok (.tuple cs)).fields.status = 0 ∧ (Response.ok (.tuple cs)).fields.flag = false ∧
    (Response.ok (.tuple cs)).fields.ra = 0 ∧ (Response.ok (.tuple cs)).fields.info = Vector.replicate 4 0 ∧
    (Response.ok (.tuple cs)).fields.cnt = BitVec.ofNat 8 cs.length ∧
    ∀ i : Fin 12, (Response.ok (.tuple cs)).fields.we.getLsbD i = decide (i.val < cs.length) ∧
      (Response.ok (.tuple cs)).fields.r[i] = if i.val < cs.length then BitVec.ofNat 64 (cs.getD i 0) else 0

/-! ## The commands, one statement each: the word that stands for the command, then how the command completes with its own
effect, or with the error the rule names; the slot is all that changes. -/

/-- ENCODE (R90): the length check first, then the lowest offender, then the address of the coordinates. -/
def Obligations.EncodeAnswers : Prop :=
  (∀ w : CmdWord, cmdOp w = 0 → decode w = .encode (cmdN w) (cmdLanes w (min (cmdN w).toNat 12))) ∧
  (∀ (n : Cnt) (coords : List Lane) (s : State), (Instr.encode n coords).wellFormed = true →
    (12 < n.toNat → exec (.encode n coords) s =
      .next { s with rsp := some (.err (.dimensionLimitExceeded n.toNat)) }) ∧
    (n.toNat ≤ 12 → ∀ j, j < n.toNat → ¬ InDomain (coords.getD j 0).toInt →
      (∀ k, k < j → InDomain (coords.getD k 0).toInt) →
      exec (.encode n coords) s =
        .next { s with rsp := some (.err (.coordinateOutOfRange j (coords.getD j 0).toInt)) }) ∧
    (n.toNat ≤ 12 → (∀ c ∈ coords, InDomain c.toInt) →
      ∃ A, exec (.encode n coords) s = .next { s with rsp := some (.ok (.address A)) } ∧
        (Response.ok (.address A)).fields.ra = A ∧ hdr A = n.toNat ∧ IsAddressOf A (coords.map BitVec.toInt)))

/-- The bits of an ENCODE's address, position by position: the header, bit `(k-4) div d` of coordinate `(k-4) mod d`, and
zero from `4 + 20d` up (R93, which the spec derives from R92 and R42; the zeros are D16). -/
def Obligations.EncodeAddressBitByBit : Prop :=
  ∀ (n : Cnt) (coords : List Lane) (s : State), (Instr.encode n coords).wellFormed = true → n.toNat ≤ 12 →
    (∀ c ∈ coords, InDomain c.toInt) →
    ∃ A, exec (.encode n coords) s = .next { s with rsp := some (.ok (.address A)) } ∧
      (∀ k, k < 4 → A.getLsbD k = n.getLsbD k) ∧
      (∀ k, 4 ≤ k → k < 4 + 20 * n.toNat →
        A.getLsbD k = (coords.getD ((k - 4) % n.toNat) 0).getLsbD ((k - 4) / n.toNat)) ∧
      (∀ k, 4 + 20 * n.toNat ≤ k → A.getLsbD k = false)

/-- DECODE (R102): the tuple of the address; a malformed operand is refused (D13). -/
def Obligations.DecodeAnswers : Prop :=
  (∀ w : CmdWord, cmdOp w = 1 → decode w = .decode (cmdA w)) ∧
  (∀ (a : Addr) (s : State),
    (12 < hdr a → exec (.decode a) s = .next { s with rsp := some (.err (.malformedAddress .a (hdr a))) }) ∧
    (hdr a ≤ 12 → exec (.decode a) s = .next { s with rsp := some (.ok (.tuple (coordsOf a))) }))

/-- DECODE_BUF (R103): the header check, the capacity check, the writes. -/
def Obligations.DecodeBufAnswers : Prop :=
  (∀ w : CmdWord, cmdOp w = 2 → decode w = .decodeBuf (cmdN w) (cmdA w)) ∧
  (∀ (n : Cnt) (a : Addr) (s : State),
    (12 < hdr a → exec (.decodeBuf n a) s = .next { s with rsp := some (.err (.malformedAddress .a (hdr a))) }) ∧
    (hdr a ≤ 12 → n.toNat < hdr a →
      exec (.decodeBuf n a) s = .next { s with rsp := some (.err (.bufferTooSmall (hdr a) n.toNat)) }) ∧
    (hdr a ≤ 12 → hdr a ≤ n.toNat →
      exec (.decodeBuf n a) s = .next { s with rsp := some (.ok (.bufWrites (coordsOf a))) }))

/-- DIMS (R110): the header as it stands, 0 to 15, with no check (D32). -/
def Obligations.DimsAnswers : Prop :=
  (∀ w : CmdWord, cmdOp w = 3 → decode w = .dims (cmdA w)) ∧
  (∀ (a : Addr) (s : State), exec (.dims a) s = .next { s with rsp := some (.ok (.count (a.toNat % 16))) })

/-- AT (R111): the header check, the index check, the coordinate of the R22 formula in `r[0]` and zero in every other result
field. -/
def Obligations.AtAnswers : Prop :=
  (∀ w : CmdWord, cmdOp w = 4 → decode w = .atIndex (cmdA w) (cmdV w 0)) ∧
  (∀ (a : Addr) (i : Lane) (s : State),
    (12 < hdr a → exec (.atIndex a i) s = .next { s with rsp := some (.err (.malformedAddress .a (hdr a))) }) ∧
    (hdr a ≤ 12 → i.toInt < 0 ∨ (hdr a : Int) ≤ i.toInt →
      exec (.atIndex a i) s = .next { s with rsp := some (.err (.indexOutOfRange i.toInt (hdr a))) }) ∧
    (hdr a ≤ 12 → 0 ≤ i.toInt → i.toInt < hdr a →
      exec (.atIndex a i) s = .next { s with rsp := some (.ok (.coordinate (extractCoord a i.toInt.toNat))) } ∧
        (Response.ok (.coordinate (extractCoord a i.toInt.toNat))).fields = ⟨0, false, 0, 0, 0,
          #v[BitVec.ofNat 64 (extractCoord a i.toInt.toNat), 0, 0, 0, 0, 0, 0, 0, 0, 0, 0, 0], Vector.replicate 4 0⟩))

/-- Bit `p` of the coordinate the R22 formula reads is bit `4 + p*d + i` of the address, and its sum over twenty bits has no
bit from 20 up (R22). -/
def Obligations.CoordinateBitsAreAddressBits : Prop :=
  ∀ (a : Addr) (i p : Nat), (p < 20 → (extractCoord a i).testBit p = a.getLsbD (4 + p * hdr a + i)) ∧
    extractCoord a i ≤ 1048575

/-- ISZERO (R113): the header check, then whether every coordinate is zero. -/
def Obligations.IsZeroAnswers : Prop :=
  (∀ w : CmdWord, cmdOp w = 5 → decode w = .isZero (cmdA w)) ∧
  (∀ (a : Addr) (s : State),
    (12 < hdr a → exec (.isZero a) s = .next { s with rsp := some (.err (.malformedAddress .a (hdr a))) }) ∧
    (hdr a ≤ 12 → ∃ b, exec (.isZero a) s = .next { s with rsp := some (.ok (.flag b)) } ∧
      (Response.ok (.flag b)).fields.flag = b ∧ (b = true ↔ ∀ i, i < hdr a → extractCoord a i = 0)))

/-- ISZERO answers true iff bits 4 to `3 + 20d` are all zero, stray bits apart (R113, a corner case the spec derives from
R42). -/
def Obligations.IsZeroTestsTheCoordinateField : Prop :=
  ∀ (a : Addr) (s : State), hdr a ≤ 12 →
    (exec (.isZero a) s = .next { s with rsp := some (.ok (.flag true)) } ↔
      ∀ k, 4 ≤ k → k ≤ 3 + 20 * hdr a → a.getLsbD k = false)

/-- APPEND (R121): the header check, the length check on the new length, the lowest offender with its index in the new
sequence, then the address of the longer tuple. -/
def Obligations.AppendAnswers : Prop :=
  (∀ w : CmdWord, cmdOp w = 6 → decode w = .append (cmdN w) (cmdA w) (cmdLanes w (min (cmdN w).toNat 12))) ∧
  (∀ (n : Cnt) (a : Addr) (extra : List Lane) (s : State), (Instr.append n a extra).wellFormed = true →
    (12 < hdr a → exec (.append n a extra) s = .next { s with rsp := some (.err (.malformedAddress .a (hdr a))) }) ∧
    (hdr a ≤ 12 → 12 < hdr a + n.toNat →
      exec (.append n a extra) s = .next { s with rsp := some (.err (.dimensionLimitExceeded (hdr a + n.toNat))) }) ∧
    (hdr a + n.toNat ≤ 12 → ∀ j, j < n.toNat → ¬ InDomain (extra.getD j 0).toInt →
      (∀ k, k < j → InDomain (extra.getD k 0).toInt) →
      exec (.append n a extra) s =
        .next { s with rsp := some (.err (.coordinateOutOfRange (hdr a + j) (extra.getD j 0).toInt)) }) ∧
    (hdr a + n.toNat ≤ 12 → (∀ c ∈ extra, InDomain c.toInt) →
      ∃ A, exec (.append n a extra) s = .next { s with rsp := some (.ok (.address A)) } ∧
        (Response.ok (.address A)).fields.ra = A ∧
        hdr A = hdr a + n.toNat ∧
        IsAddressOf A ((coordsOf a).map Int.ofNat ++ extra.map BitVec.toInt)))

/-- SLICE (R122): the header check, the bounds check, then the address of the sub-sequence `[from, to)`. -/
def Obligations.SliceAnswers : Prop :=
  (∀ w : CmdWord, cmdOp w = 7 → decode w = .slice (cmdA w) (cmdV w 0) (cmdV w 1)) ∧
  (∀ (a : Addr) (lo hi : Lane) (s : State),
    (12 < hdr a → exec (.slice a lo hi) s = .next { s with rsp := some (.err (.malformedAddress .a (hdr a))) }) ∧
    (hdr a ≤ 12 → ¬ (0 ≤ lo.toInt ∧ lo.toInt ≤ hi.toInt ∧ hi.toInt ≤ hdr a) →
      exec (.slice a lo hi) s = .next { s with rsp := some (.err (.rangeInvalid lo.toInt hi.toInt (hdr a))) }) ∧
    (hdr a ≤ 12 → 0 ≤ lo.toInt → lo.toInt ≤ hi.toInt → hi.toInt ≤ hdr a →
      ∃ A, exec (.slice a lo hi) s = .next { s with rsp := some (.ok (.address A)) } ∧
        (Response.ok (.address A)).fields.ra = A ∧
        (hdr A : Int) = hi.toInt - lo.toInt ∧
        IsAddressOf A ((((coordsOf a).map Int.ofNat).drop lo.toInt.toNat).take (hi.toInt - lo.toInt).toNat)))

/-- WITH (R123): the header check, the index check, the value check, then the address with one coordinate replaced. -/
def Obligations.WithAnswers : Prop :=
  (∀ w : CmdWord, cmdOp w = 8 → decode w = .withCoord (cmdA w) (cmdV w 0) (cmdV w 1)) ∧
  (∀ (a : Addr) (i value : Lane) (s : State),
    (12 < hdr a → exec (.withCoord a i value) s =
      .next { s with rsp := some (.err (.malformedAddress .a (hdr a))) }) ∧
    (hdr a ≤ 12 → i.toInt < 0 ∨ (hdr a : Int) ≤ i.toInt →
      exec (.withCoord a i value) s = .next { s with rsp := some (.err (.indexOutOfRange i.toInt (hdr a))) }) ∧
    (hdr a ≤ 12 → 0 ≤ i.toInt → i.toInt < hdr a → ¬ InDomain value.toInt →
      exec (.withCoord a i value) s =
        .next { s with rsp := some (.err (.coordinateOutOfRange i.toInt.toNat value.toInt)) }) ∧
    (hdr a ≤ 12 → 0 ≤ i.toInt → i.toInt < hdr a → InDomain value.toInt →
      ∃ A, exec (.withCoord a i value) s = .next { s with rsp := some (.ok (.address A)) } ∧
        (Response.ok (.address A)).fields.ra = A ∧ hdr A = hdr a ∧ IsAddressOf A (((coordsOf a).map Int.ofNat).set i.toInt.toNat value.toInt)))

/-- For a canonical operand WITH changes exactly the bits of the one coordinate in which old and new value differ (R123, a
corner case the spec derives from R93). -/
def Obligations.WithChangesOnlyItsCoordinatesBits : Prop :=
  ∀ (a : Addr) (i value : Lane) (s : State), Canonical a → 0 ≤ i.toInt → i.toInt < hdr a → InDomain value.toInt →
    ∃ A, exec (.withCoord a i value) s = .next { s with rsp := some (.ok (.address A)) } ∧
      (∀ p, p < 20 → A.getLsbD (4 + p * hdr a + i.toInt.toNat) = value.getLsbD p) ∧
      (∀ k, (∀ p, p < 20 → k ≠ 4 + p * hdr a + i.toInt.toNat) → A.getLsbD k = a.getLsbD k)

/-- EQUAL (R135): true iff the two 256-bit values are the same, whatever their headers (D32). -/
def Obligations.EqualAnswers : Prop :=
  (∀ w : CmdWord, cmdOp w = 9 → decode w = .equal (cmdA w) (cmdB w)) ∧
  (∀ (a b : Addr) (s : State), ∃ v, exec (.equal a b) s = .next { s with rsp := some (.ok (.flag v)) } ∧
    (v = true ↔ a = b))

/-- CONTAINS (R137): operand `a` is checked first, then `b` (D24); true iff the tuple of `a` is a prefix of the tuple of
`b`. -/
def Obligations.ContainsAnswers : Prop :=
  (∀ w : CmdWord, cmdOp w = 10 → decode w = .contains (cmdA w) (cmdB w)) ∧
  (∀ (a b : Addr) (s : State),
    (12 < hdr a → exec (.contains a b) s = .next { s with rsp := some (.err (.malformedAddress .a (hdr a))) }) ∧
    (hdr a ≤ 12 → 12 < hdr b →
      exec (.contains a b) s = .next { s with rsp := some (.err (.malformedAddress .b (hdr b))) }) ∧
    (hdr a ≤ 12 → hdr b ≤ 12 →
      ∃ v, exec (.contains a b) s = .next { s with rsp := some (.ok (.flag v)) } ∧
        (v = true ↔ hdr a ≤ hdr b ∧ ∀ i, i < hdr a → extractCoord a i = extractCoord b i)))

/-- CONTAINS is reflexive, transitive, antisymmetric on tuples, and the empty address is a prefix of every address (R138,
which the spec derives from R137). -/
def Obligations.ContainsIsAPrefixOrder : Prop :=
  ∀ (a b c : Addr) (s : State), hdr a ≤ 12 → hdr b ≤ 12 → hdr c ≤ 12 →
    exec (.contains a a) s = .next { s with rsp := some (.ok (.flag true)) } ∧
    (exec (.contains a b) s = .next { s with rsp := some (.ok (.flag true)) } →
      exec (.contains b c) s = .next { s with rsp := some (.ok (.flag true)) } →
      exec (.contains a c) s = .next { s with rsp := some (.ok (.flag true)) }) ∧
    (exec (.contains a b) s = .next { s with rsp := some (.ok (.flag true)) } →
      exec (.contains b a) s = .next { s with rsp := some (.ok (.flag true)) } → coordsOf a = coordsOf b) ∧
    exec (.contains 0 b) s = .next { s with rsp := some (.ok (.flag true)) }

/-- INRANGE (R139): pair `k` binds coordinate `k` for `k < min(n, d)`; -1 is no bound (D23); bounds are inclusive
(D22). -/
def Obligations.InRangeAnswers : Prop :=
  (∀ w : CmdWord, cmdOp w = 11 → decode w = .inRange (cmdN w) (cmdA w) (cmdPairs w (min (cmdN w).toNat 12))) ∧
  (∀ (n : Cnt) (a : Addr) (pairs : List (Lane × Lane)) (s : State),
    (12 < hdr a → exec (.inRange n a pairs) s =
      .next { s with rsp := some (.err (.malformedAddress .a (hdr a))) }) ∧
    (hdr a ≤ 12 → ∃ v, exec (.inRange n a pairs) s = .next { s with rsp := some (.ok (.flag v)) } ∧
      (v = true ↔ ∀ k, k < n.toNat → k < hdr a →
        ((pairs.getD k (0, 0)).1.toInt = -1 ∨ (pairs.getD k (0, 0)).1.toInt ≤ extractCoord a k) ∧
        ((pairs.getD k (0, 0)).2.toInt = -1 ∨ (extractCoord a k : Int) ≤ (pairs.getD k (0, 0)).2.toInt))))

/-- Opcodes 12 to 15 (R71, R167; D14): the answer is IllegalOp with the opcode, whatever the other bits of the word are. -/
def Obligations.IllegalOpcodesAnswerIllegalOp : Prop :=
  (∀ s : State,
    exec .illegal12 s = .next { s with rsp := some (.err (.illegalOp 12)) } ∧
    exec .illegal13 s = .next { s with rsp := some (.err (.illegalOp 13)) } ∧
    exec .illegal14 s = .next { s with rsp := some (.err (.illegalOp 14)) } ∧
    exec .illegal15 s = .next { s with rsp := some (.err (.illegalOp 15)) }) ∧
  (∀ (w : CmdWord) (s : State), 12 ≤ (cmdOp w).toNat →
    exec (decode w) s = .next { s with rsp := some (.err (.illegalOp (cmdOp w).toNat)) })

/-! ## The errors, one statement each: exactly which commands raise it, on which operands, and the record. -/

/-- DimensionLimitExceeded (R161): raised by ENCODE and APPEND alone, exactly when the new length exceeds 12. -/
def Obligations.DimensionLimitCause : Prop :=
  ∀ (i : Instr) (s : State) (requested : Nat), i.wellFormed = true →
    (exec i s = .next { s with rsp := some (.err (.dimensionLimitExceeded requested)) } ↔
      (∃ n coords, i = .encode n coords ∧ 12 < n.toNat ∧ requested = n.toNat) ∨
      (∃ n a extra, i = .append n a extra ∧ hdr a ≤ 12 ∧ 12 < hdr a + n.toNat ∧ requested = hdr a + n.toNat)) ∧
    (Response.err (.dimensionLimitExceeded requested)).fields.status = 1 ∧
    (Response.err (.dimensionLimitExceeded requested)).fields.info = #v[BitVec.ofInt 64 requested, 12, 0, 0]

/-- CoordinateOutOfRange (R162): raised by ENCODE, APPEND and WITH alone, for the lowest offender, with its index in the new
sequence and its value as given. -/
def Obligations.CoordinateOutOfRangeCause : Prop :=
  ∀ (i : Instr) (s : State) (index : Nat) (value : Int), i.wellFormed = true →
    (exec i s = .next { s with rsp := some (.err (.coordinateOutOfRange index value)) } ↔
      (∃ n coords, i = .encode n coords ∧ n.toNat ≤ 12 ∧ index < n.toNat ∧ value = (coords.getD index 0).toInt ∧
        ¬ InDomain value ∧ ∀ k, k < index → InDomain (coords.getD k 0).toInt) ∨
      (∃ n a extra j, i = .append n a extra ∧ hdr a + n.toNat ≤ 12 ∧ j < n.toNat ∧ index = hdr a + j ∧
        value = (extra.getD j 0).toInt ∧ ¬ InDomain value ∧ ∀ k, k < j → InDomain (extra.getD k 0).toInt) ∨
      (∃ a idx v, i = .withCoord a idx v ∧ hdr a ≤ 12 ∧ 0 ≤ idx.toInt ∧ idx.toInt < hdr a ∧
        index = idx.toInt.toNat ∧ value = v.toInt ∧ ¬ InDomain value)) ∧
    (Response.err (.coordinateOutOfRange index value)).fields.status = 2 ∧
    (Response.err (.coordinateOutOfRange index value)).fields.info =
      #v[BitVec.ofInt 64 index, BitVec.ofInt 64 value, 0, 1048575]

/-- IndexOutOfRange (R163): raised by AT and WITH alone, exactly when the index is negative or at least the dimension
count. -/
def Obligations.IndexOutOfRangeCause : Prop :=
  ∀ (i : Instr) (s : State) (index : Int) (dims : Nat),
    (exec i s = .next { s with rsp := some (.err (.indexOutOfRange index dims)) } ↔
      ∃ a idx, (i = .atIndex a idx ∨ ∃ v, i = .withCoord a idx v) ∧ hdr a ≤ 12 ∧
        (idx.toInt < 0 ∨ (hdr a : Int) ≤ idx.toInt) ∧ index = idx.toInt ∧ dims = hdr a) ∧
    (Response.err (.indexOutOfRange index dims)).fields.status = 3 ∧
    (Response.err (.indexOutOfRange index dims)).fields.info = #v[BitVec.ofInt 64 index, BitVec.ofInt 64 dims, 0, 0]

/-- BufferTooSmall (R164): raised by DECODE_BUF alone, exactly when the capacity is less than `d`; no cell is written. -/
def Obligations.BufferTooSmallCause : Prop :=
  ∀ (i : Instr) (s : State) (needed given : Nat),
    (exec i s = .next { s with rsp := some (.err (.bufferTooSmall needed given)) } ↔
      ∃ n a, i = .decodeBuf n a ∧ hdr a ≤ 12 ∧ n.toNat < hdr a ∧ needed = hdr a ∧ given = n.toNat) ∧
    (Response.err (.bufferTooSmall needed given)).fields.status = 4 ∧
    (Response.err (.bufferTooSmall needed given)).fields.info =
      #v[BitVec.ofInt 64 needed, BitVec.ofInt 64 given, 0, 0] ∧
    (Response.err (.bufferTooSmall needed given)).fields.we = 0 ∧
    (Response.err (.bufferTooSmall needed given)).writes = []

/-- RangeInvalid (R165): raised by SLICE alone, exactly when `0 ≤ from ≤ to ≤ dims` fails. -/
def Obligations.RangeInvalidCause : Prop :=
  ∀ (i : Instr) (s : State) (lo hi : Int) (dims : Nat),
    (exec i s = .next { s with rsp := some (.err (.rangeInvalid lo hi dims)) } ↔
      ∃ a l h, i = .slice a l h ∧ hdr a ≤ 12 ∧ ¬ (0 ≤ l.toInt ∧ l.toInt ≤ h.toInt ∧ h.toInt ≤ hdr a) ∧
        lo = l.toInt ∧ hi = h.toInt ∧ dims = hdr a) ∧
    (Response.err (.rangeInvalid lo hi dims)).fields.status = 5 ∧
    (Response.err (.rangeInvalid lo hi dims)).fields.info =
      #v[BitVec.ofInt 64 lo, BitVec.ofInt 64 hi, BitVec.ofInt 64 dims, 0]

/-- MalformedAddress (R166; the spec's decision D13): raised by every decoding command, exactly when the header of operand
`a` (then of operand `b`, in CONTAINS) is 13 to 15; never by ENCODE, DIMS or EQUAL. -/
def Obligations.MalformedAddressCause : Prop :=
  ∀ (i : Instr) (s : State) (o : Operand) (h : Nat),
    exec i s = .next { s with rsp := some (.err (.malformedAddress o h)) } ↔
      (o = .a ∧ ∃ a, 12 < hdr a ∧ h = hdr a ∧
        (i = .decode a ∨ (∃ n, i = .decodeBuf n a) ∨ (∃ k, i = .atIndex a k) ∨ i = .isZero a ∨
          (∃ n es, i = .append n a es) ∨ (∃ l u, i = .slice a l u) ∨ (∃ k v, i = .withCoord a k v) ∨
          (∃ b, i = .contains a b) ∨ ∃ n ps, i = .inRange n a ps)) ∨
      (o = .b ∧ ∃ a b, hdr a ≤ 12 ∧ 12 < hdr b ∧ h = hdr b ∧ i = .contains a b)

/-! ## Whole-machine rules -/

/-- Every command, on every state, answers a next state in which the slot is full and nothing else has changed, and the
response depends on the command alone (R29, R34, R169). -/
def Obligations.ExecFillsTheSlotAndNothingElse : Prop :=
  ∀ i : Instr, ∃ r : Response, ∀ s : State,
    exec i s = .next { rsp := some r, inputs := s.inputs, offered := s.offered, buffer := s.buffer,
                       pending := s.pending, received := s.received, edges := s.edges }

/-- No command returns a status outside its row of the table (R176, which the spec derives from R161 to R167). -/
def Obligations.StatusesStayInTheTable : Prop :=
  ∀ (i : Instr) (s t : State) (r : Response), exec i s = .next t → t.rsp = some r → r.fields.status ∈ allowedStatus i

/-- Every address the unit answers with is canonical, and its bits 244 to 255 are zero (R94, R125). -/
def Obligations.AddressAnswersAreCanonical : Prop :=
  ∀ (w : CmdWord) (s t : State) (A : Addr), exec (decode w) s = .next t → t.rsp = some (.ok (.address A)) →
    Canonical A ∧ ∀ k, 244 ≤ k → A.getLsbD k = false

/-- SLICE of the whole and APPEND of nothing give the operand with its stray bits cleared, and the operand itself iff it is
canonical (R125, R199). -/
def Obligations.WholeSliceAndEmptyAppendCanonicalise : Prop :=
  ∀ (a : Addr) (s : State), hdr a ≤ 12 →
    ∃ A, exec (.slice a 0 (BitVec.ofNat 64 (hdr a))) s = .next { s with rsp := some (.ok (.address A)) } ∧
      exec (.append 0 a []) s = .next { s with rsp := some (.ok (.address A)) } ∧
      (∀ k, A.getLsbD k = (decide (k < 4 + 20 * hdr a) && a.getLsbD k)) ∧ (A = a ↔ Canonical a)

/-- Two operands that agree on the used bits are the same operand to every decoding command: stray bits are ignored (R26,
R199; D15). -/
def Obligations.StrayBitsAreIgnoredByDecoders : Prop :=
  ∀ (a a' b : Addr) (n : Cnt) (extra : List Lane) (i v : Lane) (pairs : List (Lane × Lane)) (s : State),
    hdr a ≤ 12 → (∀ k, k < 4 + 20 * hdr a → a'.getLsbD k = a.getLsbD k) →
    exec (.decode a') s = exec (.decode a) s ∧ exec (.decodeBuf n a') s = exec (.decodeBuf n a) s ∧
    exec (.atIndex a' i) s = exec (.atIndex a i) s ∧ exec (.isZero a') s = exec (.isZero a) s ∧
    exec (.append n a' extra) s = exec (.append n a extra) s ∧ exec (.slice a' i v) s = exec (.slice a i v) s ∧
    exec (.withCoord a' i v) s = exec (.withCoord a i v) s ∧ exec (.contains a' b) s = exec (.contains a b) s ∧
    exec (.contains b a') s = exec (.contains b a) s ∧ exec (.inRange n a' pairs) s = exec (.inRange n a pairs) s

/-- A command whose address operands are canonical is never answered with MalformedAddress (R166, R194). -/
def Obligations.CanonicalOperandsAreNeverMalformed : Prop :=
  ∀ (i : Instr) (s t : State) (o : Operand) (h : Nat),
    (match i with
      | .encode _ _ => True
      | .decode a => Canonical a
      | .decodeBuf _ a => Canonical a
      | .dims a => Canonical a
      | .atIndex a _ => Canonical a
      | .isZero a => Canonical a
      | .append _ a _ => Canonical a
      | .slice a _ _ => Canonical a
      | .withCoord a _ _ => Canonical a
      | .equal a b => Canonical a ∧ Canonical b
      | .contains a b => Canonical a ∧ Canonical b
      | .inRange _ a _ => Canonical a
      | .illegal12 => True
      | .illegal13 => True
      | .illegal14 => True
      | .illegal15 => True) →
    exec i s = .next t → t.rsp ≠ some (.err (.malformedAddress o h))

/-- The round-trip laws (R104): `Dec(Enc(cs)) = cs`; `Enc(Dec(a))` is `a` with its stray bits cleared, so it is `a` iff `a`
is canonical; the length of `Dec(a)` is the header (the second and third law are derived by the spec). -/
def Obligations.RoundTripLaws : Prop :=
  (∀ cs : List Nat, cs.length ≤ 12 → (∀ c ∈ cs, c ≤ 1048575) → dec (enc cs) = cs) ∧
  (∀ a : Addr, hdr a ≤ 12 →
    (∀ k, (enc (dec a)).getLsbD k = (decide (k < 4 + 20 * hdr a) && a.getLsbD k)) ∧
    (enc (dec a) = a ↔ Canonical a) ∧ (dec a).length = hdr a)

/-- The decode loop reads the header and the bits `4 + p*d + i` only, and gives `coord(a, i)` of the R22 formula in every
place (R101). -/
def Obligations.DecodeLoopReadsTheFormula : Prop :=
  (∀ a : Addr, (dec a).length = hdr a ∧ (∀ i, i < hdr a → (dec a).getD i 0 = extractCoord a i) ∧
    ∀ c ∈ dec a, c ≤ 1048575) ∧
  (∀ a a' : Addr, hdr a ≤ 12 → (∀ k, k < 4 + 20 * hdr a → a'.getLsbD k = a.getLsbD k) → dec a' = dec a) ∧
  dec 0 = []

/-- Injectivity (R95): two valid sequences have the same address iff they are the same sequence. -/
def Obligations.EncodingIsInjective : Prop :=
  ∀ cs cs' : List Nat, cs.length ≤ 12 → cs'.length ≤ 12 → (∀ c ∈ cs, c ≤ 1048575) → (∀ c ∈ cs', c ≤ 1048575) →
    (enc cs = enc cs' ↔ cs = cs')

/-- For canonical operands EQUAL answers true iff the headers and the tuples agree (R136, which the spec derives from R95 and
R104). -/
def Obligations.EqualOnCanonicalOperandsComparesTuples : Prop :=
  ∀ (a b : Addr) (s : State), Canonical a → Canonical b →
    (exec (.equal a b) s = .next { s with rsp := some (.ok (.flag true)) } ↔
      hdr a = hdr b ∧ coordsOf a = coordsOf b)

/-- The four words of an Address (R40; D17): bit `k` is bit `k mod 64` of word `k div 64`. -/
def Obligations.AddressIsItsFourWords : Prop :=
  ∀ a : Addr, addrOfWords (addrWord a 3) (addrWord a 2) (addrWord a 1) (addrWord a 0) = a ∧
    ∀ k, k < 256 → a.getLsbD k = (addrWord a (k / 64)).getLsbD (k % 64)

/-- The offset map of one dimension count is a bijection onto the coordinate field (R42, which the spec derives from
R22). -/
def Obligations.OffsetsFillTheCoordinateField : Prop :=
  ∀ d : Nat, 1 ≤ d → d ≤ 12 →
    (∀ p i, p < 20 → i < d → 4 ≤ offset d p i ∧ offset d p i ≤ 3 + 20 * d ∧
      (offset d p i - 4) / d = p ∧ (offset d p i - 4) % d = i) ∧
    (∀ k, 4 ≤ k → k ≤ 3 + 20 * d → (k - 4) / d < 20 ∧ (k - 4) % d < d ∧ offset d ((k - 4) / d) ((k - 4) % d) = k)

/-! ## The clock edge. At every edge that has a next state the world may also touch the decode buffer: the host commits lanes
it has received and others write (R50, R196); `State.landing` is what lands, `Buffer.commit` how. -/

/-- ISSUE (R29, R60): at an edge with `rst = 0`, `cmd_valid = 1`, the slot empty and no broken offer, the step is `exec` of
the command on the pins, on the state in which the edge has passed, the buffer is touched and the offer is taken. The second clause, that the step
after `withFetchWord` is `exec` of the word placed, is about the model's own device and no rule of the spec (log 3,
DEDUCED: the offer through which a program comes to run). -/
def Obligations.StepRunsTheOfferedCommand : Prop :=
  (∀ (s : State) (i : Instr), s.rsp = none → s.pins.rst = false → s.pins.cmdValid = true →
    (s.offered = none ∨ s.offered = some s.pins.cmd) → decode s.pins.cmd = i →
    step s = exec i { s with inputs := s.inputs.tail, offered := none, edges := s.edges + 1,
                             buffer := s.buffer.commit (s.edges + 1) (s.landing s.pins),
                             pending := unpicked s.pins.commit s.pending }) ∧
  (∀ (s : State) (nbits w : Nat), step (s.withFetchWord nbits w) =
    exec (decode (BitVec.ofNat 2060 (w % 2 ^ nbits))) { s with rsp := none, offered := none, edges := s.edges + 1 })

/-- RETIRE (R29): the host receives the response in the slot and the slot is empty; the lanes of a DECODE_BUF join those
the host has yet to commit, and any of these may be committed at this edge already (R50); a command on the pins is not taken
at that edge (R197) and stands as offered (R198). -/
def Obligations.StepRetiresTheResponse : Prop :=
  ∀ (s : State) (r : Response), s.rsp = some r → s.pins.rst = false → s.pins.rspReady = true →
    (s.offered = none ∨ s.pins.cmdValid = true ∧ s.offered = some s.pins.cmd) →
    step s = .next { rsp := none, inputs := s.inputs.tail,
                     offered := if s.pins.cmdValid then some s.pins.cmd else none,
                     buffer := s.buffer.commit (s.edges + 1)
                       (picked s.pins.commit (s.pending ++ r.writes) ++ s.pins.others),
                     pending := unpicked s.pins.commit (s.pending ++ r.writes),
                     received := s.received ++ [r], edges := s.edges + 1 }

/-- A response not accepted, and a unit offered nothing, wait: the slot and the received responses are unchanged (R198: "the
unit keeps `rsp` and `rsp_valid` unchanged"), the buffer changes by what the world does to it alone, and a command on the
pins stands as offered, so that R198 binds the host at the next edge. -/
def Obligations.StepWaitsOtherwise : Prop :=
  ∀ s : State, s.pins.rst = false → (s.offered = none ∨ s.pins.cmdValid = true ∧ s.offered = some s.pins.cmd) →
    (s.rsp.isSome = true ∧ s.pins.rspReady = false ∨ s.rsp = none ∧ s.pins.cmdValid = false) →
    ∃ t, step s = .next t ∧ t.rsp = s.rsp ∧ t.received = s.received ∧
      t.offered = (if s.pins.cmdValid then some s.pins.cmd else none) ∧
      t.buffer = s.buffer.commit (s.edges + 1) (s.landing s.pins) ∧
      t.pending = unpicked s.pins.commit s.pending ∧
      t.inputs = s.inputs.tail ∧ t.edges = s.edges + 1

/-- RESET (R190, R191): at any edge with `rst = 1`, in any state, the slot is emptied, no command is taken, no response is
received and the discarded one writes nothing; lanes received earlier are the host's and stay its own to commit. That a
standing offer lapses is the model's reading (log 12). -/
def Obligations.StepResetsTheUnit : Prop :=
  ∀ s : State, s.pins.rst = true →
    step s = .next { rsp := none, inputs := s.inputs.tail, offered := none,
                     buffer := s.buffer.commit (s.edges + 1) (s.landing s.pins),
                     pending := unpicked s.pins.commit s.pending,
                     received := s.received, edges := s.edges + 1 }

/-- The one stop (R198, U7): with `rst = 0`, an offered command that is withdrawn or changed is refused; every other edge
has a next state. That a reset edge has one even where it withdraws or changes a standing offer is the model's reading:
R198 does not exempt it, R191 says that a `cmd_valid` during reset is ignored (log 12, DEDUCED). -/
def Obligations.StepStopsOnlyOnAChangedOffer : Prop :=
  ∀ s : State,
    (s.pins.rst = false ∧ (∃ w, s.offered = some w ∧ ¬ (s.pins.cmdValid = true ∧ s.pins.cmd = w)) →
      step s = .refused .offerChanged) ∧
    (¬ (s.pins.rst = false ∧ ∃ w, s.offered = some w ∧ ¬ (s.pins.cmdValid = true ∧ s.pins.cmd = w)) →
      ∃ t, step s = .next t)

/-- Three atomic steps change the slot and no others (R29): ISSUE fills an empty slot with the answer to the command on the
pins, RETIRE and RESET empty a full one; only RETIRE adds to the received responses. A cell of the buffer changes only to a
value that others write there at that edge or to a lane of a DECODE_BUF response that the host received, at this edge or
before (R48 to R50). -/
def Obligations.OnlyIssueRetireResetChangeTheSlot : Prop :=
  ∀ s t : State, step s = .next t →
    (t.rsp = s.rsp ∨ (s.rsp = none ∧ s.pins.cmdValid = true ∧ s.pins.rst = false ∧ t.rsp = answer s.pins.cmd) ∨
      (t.rsp = none ∧ (s.pins.rst = true ∨ s.pins.rspReady = true))) ∧
    (t.received = s.received ∨
      ∃ r, s.rsp = some r ∧ s.pins.rst = false ∧ s.pins.rspReady = true ∧ t.received = s.received ++ [r]) ∧
    (∀ i, t.buffer.read i = s.buffer.read i ∨
      ∃ v, t.buffer.read i = some v ∧
        ((i, v) ∈ s.pins.others ∨ (i, v) ∈ s.pending ∨
          ∃ cs, s.rsp = some (.ok (.bufWrites cs)) ∧ s.pins.rst = false ∧ s.pins.rspReady = true ∧
            i < cs.length ∧ v = BitVec.ofNat 64 (cs.getD i 0))) ∧
    (∀ w ∈ t.pending, w ∈ s.pending ∨
      ∃ cs, s.rsp = some (.ok (.bufWrites cs)) ∧ s.pins.rst = false ∧ s.pins.rspReady = true ∧
        w.1 < cs.length ∧ w.2 = BitVec.ofNat 64 (cs.getD w.1 0))

/-- The host without the hazard (R196: one "that commits each response's lanes before retiring the next response"): where no
lane is left over from an earlier response and nobody else writes, retiring a DECODE_BUF and committing its lanes leaves the
coordinates in cells `0 .. d-1`, whatever they held before, every other cell untouched (R49; D20), and no lane left over. -/
def Obligations.RetiringDecodeBufWritesItsCells : Prop :=
  ∀ (s : State) (cs : List Nat), s.rsp = some (.ok (.bufWrites cs)) → s.pins.rst = false → s.pins.rspReady = true →
    (s.offered = none ∨ s.pins.cmdValid = true ∧ s.offered = some s.pins.cmd) →
    s.pending = [] → s.pins.others = [] → (∀ k, k < cs.length → k ∈ s.pins.commit) →
    ∃ t, step s = .next t ∧ (∀ i, i < cs.length → t.buffer.read i = some (BitVec.ofNat 64 (cs.getD i 0))) ∧
      (∀ i, cs.length ≤ i → t.buffer.read i = s.buffer.read i) ∧ t.pending = []

/-- The hazard (R196, U6): among writes that land without an order a cell holds one of the values written to it and nothing
says which (log 16); a cell written with one value only holds it, and a cell nobody writes is untouched. That writes of one edge are
the ones without an order is the model's reading of "an order imposed by the host" (log 5). -/
def Obligations.SharedCellsHoldOneOfTheWrittenValues : Prop :=
  ∀ (n : Nat) (b : Buffer) (ws : LaneWrites) (i : Nat),
    ((∃ v, (i, v) ∈ ws) → ∃ v, (i, v) ∈ ws ∧ (b.commit n ws).read i = some v) ∧
    (∀ v, (i, v) ∈ ws → (∀ v', (i, v') ∈ ws → v' = v) → (b.commit n ws).read i = some v) ∧
    ((∀ v, (i, v) ∉ ws) → (b.commit n ws).read i = b.read i)

/-- The late host (R196: "one unit with the host committing the first response's lanes late"): lanes received and not
committed wait unchanged, and when the host commits them together with those of the response it receives (at one edge, log 5), each
cell that both have holds one of the two values, and each cell that one of them has holds that one's. -/
def Obligations.LateLanesRaceWithTheNextResponse : Prop :=
  ∀ (s : State) (cs cs' : List Nat), s.rsp = some (.ok (.bufWrites cs')) → s.pins.rst = false → s.pins.rspReady = true →
    s.offered = none → s.pending = tupleWrites cs → s.pins.others = [] →
    (s.pins.commit = [] → ∃ t, step s = .next t ∧ (∀ i, t.buffer.read i = s.buffer.read i) ∧
      t.pending = tupleWrites cs ++ tupleWrites cs') ∧
    ((∀ k, k < cs.length + cs'.length → k ∈ s.pins.commit) → ∃ t, step s = .next t ∧ t.pending = [] ∧
      ∀ i, (i < cs.length → i < cs'.length →
          t.buffer.read i = some (BitVec.ofNat 64 (cs.getD i 0)) ∨ t.buffer.read i = some (BitVec.ofNat 64 (cs'.getD i 0))) ∧
        (i < cs.length → cs'.length ≤ i → t.buffer.read i = some (BitVec.ofNat 64 (cs.getD i 0))) ∧
        (cs.length ≤ i → i < cs'.length → t.buffer.read i = some (BitVec.ofNat 64 (cs'.getD i 0))) ∧
        (cs.length ≤ i → cs'.length ≤ i → t.buffer.read i = s.buffer.read i))

/-- The output pins (R60, R35): `cmd_ready` iff the slot is empty and `rst` is low (R191), `rsp_valid` iff it is full, and
then `rsp` is the response word. Just out of reset the unit is ready and offers nothing. -/
def Obligations.OutputPinsShowTheSlot : Prop :=
  (∀ (s : State) (rst : Bool), (s.cmdReady rst = true ↔ s.rsp = none ∧ rst = false) ∧
    (s.rspValid = true ↔ ∃ r, s.rsp = some r) ∧ ∀ r, s.rsp = some r → s.rspPins = r.word) ∧
  State.reset.cmdReady false = true ∧ State.reset.rspValid = false

/-- A command offered to a unit with an empty slot, and one edge of `rsp_ready` after it (whatever the host commits and others
write at it), gives the host exactly one
response, the answer to that command (R61; that the two edges suffice is the model's choice, log 2). -/
def Obligations.OfferedCommandIsAnsweredOnce : Prop :=
  ∀ (s : State) (w : CmdWord) (e : Edge) (rest : List Edge), s.rsp = none → s.offered = none →
    e.rst = false → e.rspReady = true →
    ∃ (t : State) (r : Response),
      Sys2Proof.core.run 2 { s with inputs := offerEdge w :: e :: rest } = .next t ∧
      answer w = some r ∧ t.received = s.received ++ [r] ∧ t.rsp = none ∧ t.inputs = rest

/-- What the host drives on `cmd` while `cmd_valid = 0` is read by nothing (U8, R60). -/
def Obligations.CommandPinsUnreadWithoutValid : Prop :=
  ∀ (s : State) (e : Edge) (w : CmdWord) (rest : List Edge), e.cmdValid = false →
    step { s with inputs := { e with cmd := w } :: rest } = step { s with inputs := e :: rest }

/-- The invariant holds right after reset (the empty slot is R190's; the empty buffer, waiting lanes and received list are
the model's choice, log 11). -/
def Obligations.ResetMeetsTheInvariant : Prop := State.reset.Inv

/-- The invariant, from every state that meets it: whatever the host drives, every response the unit shows or the host has
received is one the rules allow (canonical addresses, coordinates in the domain, error records that meet their own cause),
every lane waiting to be committed is a coordinate for a cell below 12 (R49), and the decode buffer keeps its canonical form
(the model's choice, log 6). -/
def Obligations.EveryStepKeepsTheInvariant : Prop :=
  ∀ s t : State, s.Inv → step s = .next t → t.Inv

/-- Order (R51, R61, R34): along any run without reset edges, from any state, the responses received and waiting are the
earlier ones followed by the answers to the commands taken, one each, in the order taken, each the answer the command has by
itself. -/
def Obligations.ResponsesAreTheAnswersInOrder : Prop :=
  ∀ (k : Nat) (s t : State), (∀ e ∈ s.inputs.take k, e.rst = false) → Sys2Proof.core.run k s = .next t →
    (t.received ++ t.rsp.toList).map some =
      (s.received ++ s.rsp.toList).map some ++ (takenIn k s).map answer
end

