-- ==== Sys2Proof/Laws/Bits.lean ====
section
/-! SUPPORT. The loops of `Enc` and `Dec`, bit by bit: what every bit of `Enc` is, and what every coordinate of `Dec` is
(`40_encoder.md` R92, `41_decoder.md` R101, `10_state.md` R22). -/

namespace Sys2Proof.Machine

/-! ## The offset map -/

/-- Two (bit, coordinate) pairs at one offset are the same pair (`20_memory.md` R42). -/
theorem offset_inj {d p q i j : Nat} (hi : i < d) (hj : j < d) (h : offset d p i = offset d q j) : p = q ∧ i = j := by
  simp only [offset] at h
  have h' : i + d * p = j + d * q := by nlinarith
  have hp := congrArg (· / d) h'
  have hd : 0 < d := by omega
  simp only [Nat.add_mul_div_left _ _ hd, Nat.div_eq_of_lt hi, Nat.div_eq_of_lt hj, zero_add] at hp
  subst hp
  exact ⟨rfl, by omega⟩

/-- Every offset of an address with at most 12 dimensions is at most 243 (`40_encoder.md` R97). -/
theorem offset_lt {d p i : Nat} (hd : d ≤ 12) (hp : p < 20) (hi : i < d) : offset d p i < 4 + 20 * d ∧ offset d p i < 244 := by
  have : p * d ≤ 19 * d := Nat.mul_le_mul_right d (by omega)
  simp only [offset]; omega

/-! ## `Enc` -/

theorem getLsbD_setBit (A : Addr) (k j : Nat) : (setBit A k).getLsbD j = (A.getLsbD j || (decide (j < 256) && decide (k = j))) := by
  simp only [setBit, BitVec.getLsbD_or, BitVec.getLsbD_twoPow]
  grind

theorem getLsbD_foldl_setBit (l : List Nat) (c : Nat → Bool) (f : Nat → Nat) (A : Addr) (j : Nat) (hj : j < 256) :
    (l.foldl (fun A i => if c i then setBit A (f i) else A) A).getLsbD j =
      (A.getLsbD j || l.any fun i => c i && decide (f i = j)) := by
  induction l generalizing A with
  | nil => simp
  | cons x l ih =>
    simp only [List.foldl_cons, ih, List.any_cons]
    cases hc : c x <;> simp [-BitVec.getLsbD_eq_getElem, getLsbD_setBit, hj, Bool.or_assoc]

theorem getLsbD_encRow (cs : List Nat) (p : Nat) (A : Addr) (j : Nat) (hj : j < 256) :
    (encRow cs p A).getLsbD j =
      (A.getLsbD j || (List.range cs.length).any fun i => (cs.getD i 0).testBit p && decide (offset cs.length p i = j)) :=
  getLsbD_foldl_setBit _ (fun i => (cs.getD i 0).testBit p) (offset cs.length p) A j hj

theorem getLsbD_foldl_encRow (cs : List Nat) (l : List Nat) (A : Addr) (j : Nat) (hj : j < 256) :
    (l.foldl (fun A p => encRow cs p A) A).getLsbD j =
      (A.getLsbD j || l.any fun p => (List.range cs.length).any fun i =>
        (cs.getD i 0).testBit p && decide (offset cs.length p i = j)) := by
  induction l generalizing A with
  | nil => simp
  | cons p l ih => simp only [List.foldl_cons, ih, List.any_cons, getLsbD_encRow _ _ _ _ hj, Bool.or_assoc]

/-- A bit of `Enc(cs)` is set iff the header sets it or some coordinate bit stands there. -/
theorem enc_getLsbD_iff (cs : List Nat) (j : Nat) (hj : j < 256) :
    (enc cs).getLsbD j = true ↔
      (j < 4 ∧ cs.length.testBit j = true) ∨
        ∃ p < 20, ∃ i < cs.length, (cs.getD i 0).testBit p = true ∧ offset cs.length p i = j := by
  simp [-BitVec.getLsbD_eq_getElem, enc, getLsbD_foldl_encRow _ _ _ _ hj, Config.coordBits, Config.hdrBits, Config.addrBits,
    BitVec.getLsbD_setWidth, BitVec.getLsbD_ofNat, hj]

/-- The header bits of `Enc(cs)`. -/
theorem enc_header_bit (cs : List Nat) {j : Nat} (hj : j < 4) : (enc cs).getLsbD j = cs.length.testBit j := by
  rw [Bool.eq_iff_iff, enc_getLsbD_iff cs j (by omega)]
  constructor
  · rintro (⟨-, h⟩ | ⟨p, -, i, -, -, h⟩)
    · exact h
    · simp only [offset] at h; omega
  · exact fun h => .inl ⟨hj, h⟩

/-- The coordinate bits of `Enc(cs)`. -/
theorem enc_coord_bit {cs : List Nat} (hd : cs.length ≤ 12) {p i : Nat} (hp : p < 20) (hi : i < cs.length) :
    (enc cs).getLsbD (offset cs.length p i) = (cs.getD i 0).testBit p := by
  have hlt := offset_lt hd hp hi
  rw [Bool.eq_iff_iff, enc_getLsbD_iff cs _ (by omega)]
  constructor
  · rintro (⟨h, -⟩ | ⟨q, hq, j, hj, hb, h⟩)
    · simp only [offset] at h; omega
    · obtain ⟨rfl, rfl⟩ := offset_inj hj hi h; exact hb
  · exact fun h => .inr ⟨p, hp, i, hi, h, rfl⟩

/-- The unused bits of `Enc(cs)` (`40_encoder.md` R94). -/
theorem enc_unused_bit {cs : List Nat} (hd : cs.length ≤ 12) {j : Nat} (hj : 4 + 20 * cs.length ≤ j) :
    (enc cs).getLsbD j = false := by
  rcases Nat.lt_or_ge j 256 with h256 | h256
  · rw [← Bool.not_eq_true, enc_getLsbD_iff cs j h256]
    rintro (⟨h, -⟩ | ⟨p, hp, i, hi, -, h⟩)
    · omega
    · have := offset_lt hd hp hi; omega
  · exact BitVec.getLsbD_of_ge _ _ h256

theorem hdr_testBit (a : Addr) (j : Nat) : (hdr a).testBit j = (decide (j < 4) && a.getLsbD j) := by
  rw [hdr, BitVec.testBit_toNat, BitVec.getLsbD_extractLsb', Nat.zero_add]

theorem hdr_enc {cs : List Nat} (hd : cs.length ≤ 12) : hdr (enc cs) = cs.length := by
  apply Nat.eq_of_testBit_eq
  intro j
  rw [hdr_testBit]
  by_cases hj : j < 4
  · simp [hj, enc_header_bit cs hj]
  · have : 2 ^ 4 ≤ 2 ^ j := Nat.pow_le_pow_right (by omega) (by omega)
    simp [hj, Nat.testBit_lt_two_pow (show cs.length < 2 ^ j by omega)]

/-! ## `Dec` -/

/-- Bits summed with their weights, read back. -/
theorem testBit_sum_bits (f : Nat → Bool) (n j : Nat) :
    ((List.range n).map fun p => (f p).toNat * 2 ^ p).sum < 2 ^ n ∧
      (((List.range n).map fun p => (f p).toNat * 2 ^ p).sum).testBit j = (decide (j < n) && f j) := by
  induction n with
  | zero => simp
  | succ n ih =>
    obtain ⟨hlt, hbit⟩ := ih
    simp only [List.range_succ, List.map_append, List.map_cons, List.map_nil, List.sum_append, List.sum_cons, List.sum_nil,
      Nat.add_zero]
    set x := ((List.range n).map fun p => (f p).toNat * 2 ^ p).sum with hx
    have hb : (f n).toNat ≤ 1 := Bool.toNat_le _
    refine ⟨by rw [pow_succ]; nlinarith, ?_⟩
    rw [show x + (f n).toNat * 2 ^ n = 2 ^ n * (f n).toNat + x by ring, Nat.testBit_two_pow_mul_add _ hlt]
    split
    · rename_i h; rw [hbit]; simp [h, show j < n + 1 by omega]
    · rename_i h
      by_cases hjn : j = n
      · subst hjn; cases f j <;> simp
      · have : ¬ j < n + 1 := by omega
        obtain ⟨m, hm⟩ : ∃ m, j - n = m + 1 := ⟨j - n - 1, by omega⟩
        cases f n <;> simp [this, hm, Nat.testBit_succ]

theorem extractCoord_eq (a : Addr) (i : Nat) :
    extractCoord a i = ((List.range 20).map fun p => (bitSelect a (offset (hdr a) p i)).toNat * 2 ^ p).sum := by
  rw [extractCoord]

theorem extractCoord_lt (a : Addr) (i : Nat) : extractCoord a i < 1048576 := by
  rw [extractCoord_eq]
  exact (testBit_sum_bits (fun p => bitSelect a (offset (hdr a) p i)) 20 0).1

theorem extractCoord_testBit (a : Addr) (i p : Nat) :
    (extractCoord a i).testBit p = (decide (p < 20) && a.getLsbD (offset (hdr a) p i)) := by
  rw [extractCoord_eq]
  exact (testBit_sum_bits (fun p => bitSelect a (offset (hdr a) p i)) 20 p).2

theorem length_foldl_modify (l : List Nat) (c : Nat → Bool) (x : Nat) (cs : List Nat) :
    (l.foldl (fun cs i => if c i then cs.modify i (· + x) else cs) cs).length = cs.length := by
  induction l generalizing cs with
  | nil => rfl
  | cons i l ih => simp only [List.foldl_cons, ih]; split <;> simp

theorem getD_foldl_modify_range (c : Nat → Bool) (x : Nat) (n : Nat) (cs : List Nat) (hn : n ≤ cs.length) (k : Nat) :
    ((List.range n).foldl (fun cs i => if c i then cs.modify i (· + x) else cs) cs).getD k 0 =
      cs.getD k 0 + if k < n ∧ c k = true then x else 0 := by
  induction n with
  | zero => simp
  | succ n ih =>
    have hlen := length_foldl_modify (List.range n) c x cs
    rw [List.range_succ, List.foldl_append, List.foldl_cons, List.foldl_nil]
    set ds := (List.range n).foldl (fun cs i => if c i then cs.modify i (· + x) else cs) cs with hds
    have ih' := ih (by omega)
    by_cases hc : c n = true
    · rw [if_pos hc]
      by_cases hk : k = n
      · subst hk
        rw [if_neg (by omega)] at ih'
        rw [if_pos ⟨by omega, hc⟩, List.getD_eq_getElem?_getD, List.getElem?_modify_eq]
        rw [List.getD_eq_getElem?_getD] at ih'
        rw [List.getElem?_eq_getElem (by omega)] at ih' ⊢
        simp at ih' ⊢; omega
      · rw [List.getD_eq_getElem?_getD, List.getElem?_modify_ne _ _ (Ne.symm hk), ← List.getD_eq_getElem?_getD, ih']
        congr 1
        simp only [show k < n + 1 ↔ k < n by omega]
    · rw [if_neg hc, ih']
      congr 1
      by_cases hk : k = n
      · subst hk; simp [hc]
      · simp only [show k < n + 1 ↔ k < n by omega]

theorem length_decRow (a : Addr) (p : Nat) (cs : List Nat) : (decRow a p cs).length = cs.length :=
  length_foldl_modify _ (fun i => bitSelect a (offset (hdr a) p i)) _ cs

theorem getD_decRow (a : Addr) (p : Nat) (cs : List Nat) (h : cs.length = hdr a) (k : Nat) :
    (decRow a p cs).getD k 0 = cs.getD k 0 + if k < hdr a ∧ bitSelect a (offset (hdr a) p k) = true then 2 ^ p else 0 :=
  getD_foldl_modify_range (fun i => bitSelect a (offset (hdr a) p i)) (2 ^ p) (hdr a) cs h.ge k

theorem foldl_decRow (a : Addr) (n : Nat) :
    ((List.range n).foldl (fun cs p => decRow a p cs) (List.replicate (hdr a) 0)).length = hdr a ∧
      ∀ k < hdr a, ((List.range n).foldl (fun cs p => decRow a p cs) (List.replicate (hdr a) 0)).getD k 0 =
        ((List.range n).map fun p => (bitSelect a (offset (hdr a) p k)).toNat * 2 ^ p).sum := by
  induction n with
  | zero => simp [List.getD_eq_getElem?_getD]
  | succ n ih =>
    rw [List.range_succ, List.foldl_append, List.foldl_cons, List.foldl_nil]
    refine ⟨by rw [length_decRow, ih.1], fun k hk => ?_⟩
    rw [getD_decRow a n _ ih.1, ih.2 k hk, List.map_append, List.sum_append]
    congr 1
    cases hb : bitSelect a (offset (hdr a) n k) <;> simp [hk, hb]

theorem length_dec (a : Addr) : (dec a).length = hdr a := (foldl_decRow a 20).1

/-- Every coordinate of `Dec(a)` is the one `10_state.md` R22 reads. -/
theorem dec_getD (a : Addr) {i : Nat} (hi : i < hdr a) : (dec a).getD i 0 = extractCoord a i := by
  rw [extractCoord_eq]
  exact (foldl_decRow a 20).2 i hi

theorem length_coordsOf (a : Addr) : (coordsOf a).length = hdr a := by simp [coordsOf]

/-- The decode loop gives the tuple the address holds. -/
theorem dec_eq_coordsOf (a : Addr) : dec a = coordsOf a := by
  apply List.ext_getElem (by rw [length_dec, length_coordsOf])
  intro i h1 h2
  have h : i < hdr a := by rwa [length_dec] at h1
  have := dec_getD a h
  rw [List.getD_eq_getElem?_getD, List.getElem?_eq_getElem h1] at this
  simpa [coordsOf] using this

/-- `Enc` of a valid tuple is canonical and holds the tuple. -/
theorem enc_canonical {cs : List Nat} (hd : cs.length ≤ 12) : Canonical (enc cs) := by
  refine ⟨by rw [hdr_enc hd]; exact hd, fun k hk _ => ?_⟩
  rw [hdr_enc hd] at hk
  exact enc_unused_bit hd hk

theorem coordsOf_enc {cs : List Nat} (hd : cs.length ≤ 12) (hc : ∀ c ∈ cs, c ≤ 1048575) : coordsOf (enc cs) = cs := by
  apply List.ext_getElem (by rw [length_coordsOf, hdr_enc hd])
  intro i h1 h2
  have hget : cs.getD i 0 = cs[i] := by simp [List.getD_eq_getElem?_getD, h2]
  simp only [coordsOf, List.getElem_map, List.getElem_range]
  apply Nat.eq_of_testBit_eq
  intro p
  rw [extractCoord_testBit, hdr_enc hd]
  by_cases hp : p < 20
  · rw [enc_coord_bit hd hp h2, hget]; simp [hp]
  · have h20 : 2 ^ 20 ≤ 2 ^ p := Nat.pow_le_pow_right (by omega) (by omega)
    have := hc cs[i] (List.getElem_mem h2)
    simp [hp, Nat.testBit_lt_two_pow (show cs[i] < 2 ^ p by omega)]

end Sys2Proof.Machine
end

