-- ==== Sys2Proof/Laws/Buffer.lean ====
section
/-! SUPPORT. The decode buffer: a read after a write, and the canonical form (`20_memory.md` R49). -/

namespace Sys2Proof.Machine

theorem Buffer.read_write_same (b : Buffer) (i : Nat) (v : Lane) : (b.write i v).read i = some v := by
  induction b with
  | nil => simp [Buffer.write, Buffer.read]
  | cons p rest ih =>
    obtain ⟨j, x⟩ := p
    simp only [Buffer.write]
    split
    · simp [Buffer.read]
    · split
      · simp [Buffer.read]
      · rename_i h; simp [Buffer.read, h, ih]

theorem Buffer.read_write_other (b : Buffer) {i k : Nat} (v : Lane) (h : k ≠ i) : (b.write i v).read k = b.read k := by
  induction b with
  | nil => simp [Buffer.write, Buffer.read, h]
  | cons p rest ih =>
    obtain ⟨j, x⟩ := p
    simp only [Buffer.write]
    split
    · simp [Buffer.read, h]
    · split
      · rename_i hij; subst hij; simp [Buffer.read, h]
      · simp [Buffer.read, ih]

/-- A write lists no cell but its own and those listed before. -/
theorem Buffer.mem_write_keys (b : Buffer) (i : Nat) (v : Lane) {k : Nat} (h : k ∈ (b.write i v).map Prod.fst) :
    k = i ∨ k ∈ b.map Prod.fst := by
  induction b with
  | nil => simpa [Buffer.write] using h
  | cons p rest ih =>
    obtain ⟨j, x⟩ := p
    simp only [Buffer.write] at h
    split at h
    · simpa using h
    · split at h
      · rename_i hij; subst hij; simp only [List.map_cons, List.mem_cons] at h ⊢; tauto
      · simp only [List.map_cons, List.mem_cons] at h ⊢
        rcases h with rfl | h
        · exact .inr (.inl rfl)
        · exact (ih h).imp_right .inr

theorem Buffer.write_wf (b : Buffer) (i : Nat) (v : Lane) (h : b.wf) : (b.write i v).wf := by
  induction b with
  | nil => simp [Buffer.write, Buffer.wf]
  | cons p rest ih =>
    obtain ⟨j, x⟩ := p
    simp only [Buffer.wf, List.map_cons, List.pairwise_cons] at h
    simp only [Buffer.write]
    split
    · rename_i hij
      simp only [Buffer.wf, List.map_cons, List.pairwise_cons, List.mem_cons]
      refine ⟨?_, h⟩
      rintro k (rfl | hk)
      · exact hij
      · exact hij.trans (h.1 k hk)
    · split
      · rename_i hij; subst hij; simpa [Buffer.wf] using h
      · simp only [Buffer.wf, List.map_cons, List.pairwise_cons]
        refine ⟨fun k hk => ?_, ih h.2⟩
        rcases Buffer.mem_write_keys rest i v hk with rfl | hk
        · omega
        · exact h.1 k hk

/-! ## Writes without an order -/

/-- What stays in a cell is one of the values written to it. -/
theorem raceValue_mem (n i : Nat) {vs : List Lane} (h : vs ≠ []) : raceValue n i vs ∈ vs := by
  cases vs with
  | nil => exact absurd rfl h
  | cons v vs =>
    simp only [raceValue]
    split
    · exact List.mem_cons_self
    · have h : Config.raceWinner n i % (vs.length + 1) < (v :: vs).length := Nat.mod_lt _ (Nat.succ_pos _)
      rw [List.getD_eq_getElem _ _ h]
      exact List.getElem_mem h

/-- What stays in a cell written with one value only is that value. -/
theorem raceValue_of_forall (n i : Nat) {vs : List Lane} {v : Lane} (h : vs ≠ []) (hv : ∀ x ∈ vs, x = v) :
    raceValue n i vs = v := hv _ (raceValue_mem n i h)

theorem mem_valuesFor {ws : LaneWrites} {i : Nat} {v : Lane} : v ∈ valuesFor ws i ↔ (i, v) ∈ ws := by
  simp [valuesFor]

/-- A loop of writes whose value depends on the cell alone leaves that value in every written cell. -/
theorem Buffer.read_foldl_write (f : Nat → Lane) (ws : LaneWrites) (b : Buffer) (i : Nat) :
    Buffer.read (ws.foldl (fun b w => Buffer.write b w.1 (f w.1)) b) i =
      if i ∈ ws.map Prod.fst then some (f i) else b.read i := by
  induction ws generalizing b with
  | nil => simp
  | cons w ws ih =>
    rw [List.foldl_cons, ih]
    by_cases h : i ∈ ws.map Prod.fst
    · rw [if_pos h, if_pos (by simpa using .inr (by simpa using h))]
    · rw [if_neg h]
      by_cases hw : i = w.1
      · subst hw; rw [if_pos (by simp), Buffer.read_write_same]
      · rw [if_neg (by simp only [List.map_cons, List.mem_cons, not_or]; exact ⟨hw, h⟩), Buffer.read_write_other b _ hw]

/-- What writes that land together leave in every cell. -/
theorem Buffer.read_commit (n : Nat) (b : Buffer) (ws : LaneWrites) (i : Nat) :
    (b.commit n ws).read i = if i ∈ ws.map Prod.fst then some (raceValue n i (valuesFor ws i)) else b.read i :=
  Buffer.read_foldl_write (fun i => raceValue n i (valuesFor ws i)) ws b i

/-- A written cell holds one of the values written to it. -/
theorem Buffer.read_commit_written (n : Nat) (b : Buffer) {ws : LaneWrites} {i : Nat} (h : i ∈ ws.map Prod.fst) :
    ∃ v, (i, v) ∈ ws ∧ (b.commit n ws).read i = some v := by
  rw [Buffer.read_commit, if_pos h]
  obtain ⟨⟨j, x⟩, hw, rfl⟩ := List.mem_map.1 h
  exact ⟨_, mem_valuesFor.1 (raceValue_mem n j (List.ne_nil_of_mem (mem_valuesFor.2 hw))), rfl⟩

/-- A cell no write is for is untouched. -/
theorem Buffer.read_commit_other (n : Nat) (b : Buffer) {ws : LaneWrites} {i : Nat} (h : i ∉ ws.map Prod.fst) :
    (b.commit n ws).read i = b.read i := by rw [Buffer.read_commit, if_neg h]

@[simp] theorem Buffer.commit_nil (n : Nat) (b : Buffer) : b.commit n [] = b := rfl

theorem Buffer.commit_wf (n : Nat) (b : Buffer) (ws : LaneWrites) (h : b.wf) : (b.commit n ws).wf := by
  have key : ∀ (f : Nat → Lane) (l : LaneWrites) (b : Buffer), b.wf →
      Buffer.wf (l.foldl (fun b w => Buffer.write b w.1 (f w.1)) b) := by
    intro f l
    induction l with
    | nil => exact fun _ h => h
    | cons w l ih => exact fun b h => ih _ (Buffer.write_wf b _ _ h)
  exact key (fun i => raceValue n i (valuesFor ws i)) ws b h

/-! ## Lanes received and not committed yet -/

theorem mem_of_mem_picked {α : Type} {places : List Nat} {l : List α} {x : α} (h : x ∈ picked places l) : x ∈ l := by
  simp only [picked, List.mem_map, List.mem_filter] at h
  obtain ⟨⟨y, k⟩, ⟨hy, -⟩, rfl⟩ := h
  exact List.fst_mem_of_mem_zipIdx hy

theorem mem_of_mem_unpicked {α : Type} {places : List Nat} {l : List α} {x : α} (h : x ∈ unpicked places l) : x ∈ l := by
  simp only [unpicked, List.mem_map, List.mem_filter] at h
  obtain ⟨⟨y, k⟩, ⟨hy, -⟩, rfl⟩ := h
  exact List.fst_mem_of_mem_zipIdx hy

@[simp] theorem picked_none {α : Type} (l : List α) : picked [] l = [] := by simp [picked]

@[simp] theorem unpicked_none {α : Type} (l : List α) : unpicked [] l = l := by
  simp [unpicked]

/-- Picking every place takes the whole list and leaves nothing. -/
theorem picked_all {α : Type} {places : List Nat} {l : List α} (h : ∀ k, k < l.length → k ∈ places) :
    picked places l = l ∧ unpicked places l = [] := by
  have key : ∀ p ∈ l.zipIdx, p.2 ∈ places := fun p hp => h _ (by
    obtain ⟨x, k⟩ := p; have := List.snd_lt_of_mem_zipIdx hp; simpa using this)
  constructor
  · rw [picked, List.filter_eq_self.2 (by simpa using key)]; simp
  · rw [unpicked, List.map_eq_nil_iff, List.filter_eq_nil_iff]; simpa using key

theorem mem_tupleWrites {cs : List Nat} {i : Nat} {v : Lane} :
    (i, v) ∈ tupleWrites cs ↔ i < cs.length ∧ v = BitVec.ofNat 64 (cs.getD i 0) := by
  simp only [tupleWrites, List.mem_map, Prod.mk.injEq, Prod.exists, List.mem_zipIdx_iff_getElem?]
  constructor
  · rintro ⟨c, k, hk, rfl, rfl⟩
    obtain ⟨h, rfl⟩ := List.getElem?_eq_some_iff.1 hk
    exact ⟨h, by rw [List.getD_eq_getElem _ _ h]⟩
  · rintro ⟨h, rfl⟩
    exact ⟨_, i, List.getElem?_eq_getElem h, rfl, by rw [List.getD_eq_getElem _ _ h]⟩

/-- An edge at which the host commits nothing and nobody else writes leaves the buffer and the waiting lanes alone. -/
theorem State.touchBuffer_quiet (s : State) {e : Edge} (hc : e.commit = []) (ho : e.others = []) : s.touchBuffer e = s := by
  simp [State.touchBuffer, State.landing, hc, ho]

/-- The lanes of a response are those of a DECODE_BUF that succeeded. -/
theorem mem_writes {r : Response} {w : Nat × Lane} (h : w ∈ r.writes) :
    ∃ cs, r = .ok (.bufWrites cs) ∧ w.1 < cs.length ∧ w.2 = BitVec.ofNat 64 (cs.getD w.1 0) := by
  unfold Response.writes at h
  split at h <;> first | exact ⟨_, rfl, mem_tupleWrites.1 h⟩ | exact absurd h List.not_mem_nil

/-- Everything an edge can do to a cell of the buffer. -/
theorem State.read_touchBuffer (s : State) (e : Edge) (i : Nat) :
    (s.touchBuffer e).buffer.read i = s.buffer.read i ∨
      ∃ v, (s.touchBuffer e).buffer.read i = some v ∧ ((i, v) ∈ s.pending ∨ (i, v) ∈ e.others) := by
  by_cases h : i ∈ (s.landing e).map Prod.fst
  · obtain ⟨v, hv, hr⟩ := Buffer.read_commit_written s.edges s.buffer h
    exact .inr ⟨v, hr, (List.mem_append.1 hv).imp_left mem_of_mem_picked⟩
  · exact .inl (Buffer.read_commit_other _ _ h)

end Sys2Proof.Machine
end

