-- ==== Sys2Proof/Laws/Ends.lean ====
section
/-! SUPPORT. How a command ends, and everything each check can answer. -/

namespace Sys2Proof.Machine

@[simp] theorem complete_ok (r : Result) (s : State) : complete (.ok r) s = .next (s.setRsp (.ok r)) := rfl

@[simp] theorem complete_error (e : ErrorRecord) (s : State) : complete (.error e) s = .next (s.setRsp (.err e)) := rfl

/-- A command that ends by `complete` fills the slot and does nothing else. -/
theorem complete_fills_slot (x : Except ErrorRecord Result) (s : State) : ∃ r, complete x s = .next (s.setRsp r) := by
  cases x with
  | ok r => exact ⟨_, rfl⟩
  | error e => exact ⟨_, rfl⟩

@[simp] theorem except_ok_bind {α β : Type} (x : α) (f : α → Except ErrorRecord β) :
    ((Except.ok x : Except ErrorRecord α) >>= f) = f x := rfl

@[simp] theorem except_error_bind {α β : Type} (e : ErrorRecord) (f : α → Except ErrorRecord β) :
    ((Except.error e : Except ErrorRecord α) >>= f) = .error e := rfl

/-- `>>=` of a unit-valued check, as the `do` blocks of the meanings write it. -/
theorem except_pure {α : Type} (x : α) : (pure x : Except ErrorRecord α) = .ok x := rfl

theorem hdr_le (a : Addr) : hdr a ≤ 15 := by
  have := (a.extractLsb' 0 4).isLt
  unfold hdr; omega

theorem checkAddr_ok {a : Addr} (w : Operand) (h : hdr a ≤ 12) : checkAddr a w = .ok () := by
  simp [checkAddr, Config.maxDims, h]

theorem checkAddr_error {a : Addr} (w : Operand) (h : 12 < hdr a) :
    checkAddr a w = .error (.malformedAddress w (hdr a)) := by
  simp [checkAddr, Config.maxDims, h]

theorem decodeChecked_ok {a : Addr} (w : Operand) (h : hdr a ≤ 12) : decodeChecked a w = .ok (dec a) := by
  simp [decodeChecked, checkAddr_ok w h, except_pure]

theorem decodeChecked_error {a : Addr} (w : Operand) (h : 12 < hdr a) :
    decodeChecked a w = .error (.malformedAddress w (hdr a)) := by
  simp [decodeChecked, checkAddr_error w h]

theorem checkIndex_ok {i : Int} {d : Nat} (h : 0 ≤ i ∧ i < d) : checkIndex i d = .ok () := by
  unfold checkIndex; rw [if_neg (by omega)]

theorem checkIndex_error {i : Int} {d : Nat} (h : ¬ (0 ≤ i ∧ i < d)) : checkIndex i d = .error (.indexOutOfRange i d) := by
  unfold checkIndex; rw [if_pos (by omega)]

/-- The element loop passes exactly the sequences that lie in the coordinate domain. -/
theorem checkCoords_ok {cs : List Int} (j : Nat) (h : ∀ c ∈ cs, 0 ≤ c ∧ c ≤ 1048575) : checkCoords j cs = .ok () := by
  induction cs generalizing j with
  | nil => rfl
  | cons c cs ih =>
    have hc := h c (by simp)
    simp only [checkCoords, Config.coordMax]
    rw [if_neg (by omega)]
    exact ih _ fun x hx => h x (by simp [hx])

/-- The element loop reports the lowest offender. -/
theorem checkCoords_error {cs : List Int} (j k : Nat) (hk : k < cs.length)
    (hbad : ¬ (0 ≤ cs.getD k 0 ∧ cs.getD k 0 ≤ 1048575))
    (hgood : ∀ i < k, 0 ≤ cs.getD i 0 ∧ cs.getD i 0 ≤ 1048575) :
    checkCoords j cs = .error (.coordinateOutOfRange (j + k) (cs.getD k 0)) := by
  induction cs generalizing j k with
  | nil => simp at hk
  | cons c cs ih =>
    simp only [checkCoords, Config.coordMax]
    cases k with
    | zero =>
      simp only [List.getD_cons_zero] at hbad ⊢
      rw [if_pos (by omega)]; rfl
    | succ k =>
      have h0 := hgood 0 (by omega)
      simp only [List.getD_cons_zero] at h0
      rw [if_neg (by omega)]
      simp only [List.getD_cons_succ] at hbad ⊢
      rw [ih (j + 1) k (by simpa using hk) hbad fun i hi => by simpa using hgood (i + 1) (by omega)]
      rw [show j + 1 + k = j + (k + 1) by omega]

/-- The element loop either passes every element or stops at a first offender. -/
theorem checkCoords_cases (j : Nat) (cs : List Int) :
    (checkCoords j cs = .ok () ∧ ∀ c ∈ cs, 0 ≤ c ∧ c ≤ 1048575) ∨
      ∃ k, k < cs.length ∧ checkCoords j cs = .error (.coordinateOutOfRange (j + k) (cs.getD k 0)) ∧
        ¬ (0 ≤ cs.getD k 0 ∧ cs.getD k 0 ≤ 1048575) := by
  induction cs generalizing j with
  | nil => exact .inl ⟨rfl, by simp⟩
  | cons c cs ih =>
    simp only [checkCoords, Config.coordMax]
    by_cases hc : c < 0 ∨ c > ((1048575 : Nat) : Int)
    · rw [if_pos hc]
      exact .inr ⟨0, by simp, rfl, by simp only [List.getD_cons_zero]; omega⟩
    · rw [if_neg hc]
      rcases ih (j + 1) with ⟨h, hall⟩ | ⟨k, hk, h, hbad⟩
      · refine .inl ⟨h, fun x hx => ?_⟩
        rcases List.mem_cons.1 hx with rfl | hx
        · omega
        · exact hall x hx
      · refine .inr ⟨k + 1, by simpa using hk, ?_, by simpa using hbad⟩
        rw [h, List.getD_cons_succ, show j + 1 + k = j + (k + 1) by omega]

theorem validate_long {L : Nat} (cs : List Int) (h : 12 < L) : validate L cs = .error (.dimensionLimitExceeded L) := by
  simp [validate, Config.maxDims, h]

theorem validate_short {L : Nat} (cs : List Int) (h : L ≤ 12) : validate L cs = checkCoords 0 cs := by
  simp [validate, Config.maxDims, show ¬ 12 < L by omega]

theorem encodeChecked_long {L : Nat} (cs : List Int) (h : 12 < L) :
    encodeChecked L cs = .error (.dimensionLimitExceeded L) := by
  simp [encodeChecked, validate_long cs h]

theorem encodeChecked_ok {L : Nat} {cs : List Int} (h : L ≤ 12) (hc : ∀ c ∈ cs, 0 ≤ c ∧ c ≤ 1048575) :
    encodeChecked L cs = .ok (.address (enc (cs.map Int.toNat))) := by
  simp [encodeChecked, validate_short cs h, checkCoords_ok 0 hc, except_pure]

theorem encodeChecked_bad {L : Nat} {cs : List Int} (k : Nat) (h : L ≤ 12) (hk : k < cs.length)
    (hbad : ¬ (0 ≤ cs.getD k 0 ∧ cs.getD k 0 ≤ 1048575))
    (hgood : ∀ i < k, 0 ≤ cs.getD i 0 ∧ cs.getD i 0 ≤ 1048575) :
    encodeChecked L cs = .error (.coordinateOutOfRange k (cs.getD k 0)) := by
  simp [encodeChecked, validate_short cs h, checkCoords_error 0 k hk hbad hgood]

/-- Everything `Validate` then `Enc` can answer. -/
theorem encodeChecked_cases (L : Nat) (cs : List Int) :
    (12 < L ∧ encodeChecked L cs = .error (.dimensionLimitExceeded L)) ∨
      (L ≤ 12 ∧ (∀ c ∈ cs, 0 ≤ c ∧ c ≤ 1048575) ∧ encodeChecked L cs = .ok (.address (enc (cs.map Int.toNat)))) ∨
      (L ≤ 12 ∧ ∃ k, k < cs.length ∧ ¬ (0 ≤ cs.getD k 0 ∧ cs.getD k 0 ≤ 1048575) ∧
        encodeChecked L cs = .error (.coordinateOutOfRange k (cs.getD k 0))) := by
  rcases Nat.lt_or_ge 12 L with h | h
  · exact .inl ⟨h, encodeChecked_long cs h⟩
  · rcases checkCoords_cases 0 cs with ⟨-, hall⟩ | ⟨k, hk, he, hbad⟩
    · exact .inr (.inl ⟨h, hall, encodeChecked_ok h hall⟩)
    · refine .inr (.inr ⟨h, k, hk, hbad, ?_⟩)
      simp [encodeChecked, validate_short cs h, he]

end Sys2Proof.Machine
end

