-- ==== Sys2Proof/Laws/Flags.lean ====
section
/-! SUPPORT. What each flag condition says, and what the index, capacity and range checks answer. -/

namespace Sys2Proof.Machine

theorem allZero_iff (cs : List Nat) : allZero cs = true ↔ ∀ i, i < cs.length → cs.getD i 0 = 0 := by
  simp only [allZero, List.all_eq_true, beq_iff_eq]
  constructor
  · intro h i hi
    rw [List.getD_eq_getElem?_getD, List.getElem?_eq_getElem hi]
    exact h _ (List.getElem_mem hi)
  · intro h c hc
    obtain ⟨i, hi, rfl⟩ := List.getElem_of_mem hc
    simpa [List.getD_eq_getElem?_getD, hi] using h i hi

theorem sameBits_iff (a b : Addr) : sameBits a b = true ↔ ∀ k, k < 256 → a.getLsbD k = b.getLsbD k := by
  simp only [sameBits, List.all_eq_true, List.mem_range, beq_iff_eq, Config.addrBits]

theorem prefixOf_iff (sa sb : List Nat) :
    prefixOf sa sb = true ↔ sa.length ≤ sb.length ∧ ∀ i, i < sa.length → sa.getD i 0 = sb.getD i 0 := by
  unfold prefixOf
  split
  · rename_i h; simp only [Bool.false_eq_true, false_iff]; omega
  · rename_i h; simp only [List.all_eq_true, List.mem_range, beq_iff_eq, show sa.length ≤ sb.length by omega, true_and]

theorem pairHolds_iff (lo hi : Int) (c : Nat) :
    pairHolds lo hi c = true ↔ (lo = -1 ∨ lo ≤ (c : Int)) ∧ (hi = -1 ∨ (c : Int) ≤ hi) := by
  simp only [pairHolds, Config.rangeSentinel, Bool.and_eq_true, Bool.not_eq_true', Bool.and_eq_false_iff, bne_eq_false_iff_eq,
    decide_eq_false_iff_not]
  constructor <;> rintro ⟨h1, h2⟩ <;> exact ⟨h1.imp_right (by omega), h2.imp_right (by omega)⟩

theorem pairsHold_iff (m : Nat) (pairs : List (Lane × Lane)) (cs : List Nat) :
    pairsHold m pairs cs = true ↔ ∀ k, k < m → k < cs.length →
      pairHolds (sint (pairs.getD k (0, 0)).1) (sint (pairs.getD k (0, 0)).2) (cs.getD k 0) = true := by
  simp only [pairsHold, List.all_eq_true, List.mem_range, Nat.lt_min]
  exact ⟨fun h k h1 h2 => h k ⟨h1, h2⟩, fun h k hk => h k hk.1 hk.2⟩

theorem checkRange_ok {lo hi : Int} {d : Nat} (h : 0 ≤ lo ∧ lo ≤ hi ∧ hi ≤ (d : Int)) : checkRange lo hi d = .ok () := if_pos h

theorem checkRange_error {lo hi : Int} {d : Nat} (h : ¬ (0 ≤ lo ∧ lo ≤ hi ∧ hi ≤ (d : Int))) :
    checkRange lo hi d = .error (.rangeInvalid lo hi d) := if_neg h

end Sys2Proof.Machine
end

