-- ==== Sys2Proof/Laws/Words.lean ====
section
/-! SUPPORT. Fields placed in a word, read back bit by bit (`30_encoding.md` R62, R66). -/

namespace Sys2Proof

theorem getLsbD_placeField (w lo : Nat) {n : Nat} (x : BitVec n) (k : Nat) :
    (placeField w lo x).getLsbD k = (decide (k < w) && decide (lo ≤ k) && x.getLsbD (k - lo)) := by
  simp only [placeField, BitVec.getLsbD_shiftLeft, BitVec.getLsbD_setWidth]
  grind

/-- Bit `k` of placed lanes is bit `(k - lo) % 64` of lane `(k - lo) / 64`. -/
theorem getLsbD_placeLanes (w lo : Nat) (vs : List Lane) (k : Nat) :
    (placeLanes w lo vs).getLsbD k =
      (decide (k < w) && decide (lo ≤ k) && (vs.getD ((k - lo) / 64) 0).getLsbD ((k - lo) % 64)) := by
  induction vs generalizing lo with
  | nil => simp [placeLanes]
  | cons v vs ih =>
    simp only [placeLanes, BitVec.getLsbD_or, getLsbD_placeField, ih]
    by_cases hw : k < w
    · by_cases hlo : lo ≤ k
      · by_cases h64 : lo + 64 ≤ k
        · obtain ⟨m, rfl⟩ : ∃ m, k = lo + 64 + m := ⟨k - (lo + 64), by omega⟩
          rw [show lo + 64 + m - (lo + 64) = m by omega, show lo + 64 + m - lo = m + 64 by omega,
            Nat.add_div_right _ (by omega : 0 < 64), Nat.add_mod_right, List.getD_cons_succ,
            BitVec.getLsbD_of_ge v (m + 64) (by omega)]
          simp [hlo]
        · rw [Nat.div_eq_of_lt (by omega : k - lo < 64), Nat.mod_eq_of_lt (by omega : k - lo < 64), List.getD_cons_zero]
          simp [hw, hlo, show ¬ lo + 64 ≤ k by omega]
      · simp [hlo, show ¬ lo + 64 ≤ k by omega]
    · simp [hw]

/-- Every bit of a packed command word. -/
theorem getLsbD_packCmd (op : BitVec 4) (n : Cnt) (a b : Addr) (v : List Lane) (k : Nat) (hk : k < 2060) :
    (packCmd op n a b v).getLsbD k =
      (op.getLsbD k || (decide (4 ≤ k) && n.getLsbD (k - 4)) || (decide (12 ≤ k) && a.getLsbD (k - 12)) ||
        (decide (268 ≤ k) && b.getLsbD (k - 268)) ||
        (decide (524 ≤ k) && (v.getD ((k - 524) / 64) 0).getLsbD ((k - 524) % 64))) := by
  simp [-BitVec.getLsbD_eq_getElem, packCmd, getLsbD_placeField, getLsbD_placeLanes, hk]

theorem cmdOp_packCmd (op : BitVec 4) (n : Cnt) (a b : Addr) (v : List Lane) : cmdOp (packCmd op n a b v) = op := by
  apply BitVec.eq_of_getLsbD_eq
  intro k hk
  simp only [cmdOp, BitVec.getLsbD_extractLsb', hk, decide_true, Bool.true_and, Nat.zero_add]
  rw [getLsbD_packCmd _ _ _ _ _ _ (by omega)]
  simp [show ¬ 4 ≤ k by omega, show ¬ 12 ≤ k by omega, show ¬ 268 ≤ k by omega, show ¬ 524 ≤ k by omega]

theorem cmdN_packCmd (op : BitVec 4) (n : Cnt) (a b : Addr) (v : List Lane) : cmdN (packCmd op n a b v) = n := by
  apply BitVec.eq_of_getLsbD_eq
  intro k hk
  simp only [cmdN, BitVec.getLsbD_extractLsb', hk, decide_true, Bool.true_and]
  rw [getLsbD_packCmd _ _ _ _ _ _ (by omega)]
  simp [show ¬ 12 ≤ 4 + k by omega, show ¬ 268 ≤ 4 + k by omega, show ¬ 524 ≤ 4 + k by omega]

theorem cmdA_packCmd (op : BitVec 4) (n : Cnt) (a b : Addr) (v : List Lane) : cmdA (packCmd op n a b v) = a := by
  apply BitVec.eq_of_getLsbD_eq
  intro k hk
  simp only [cmdA, BitVec.getLsbD_extractLsb', hk, decide_true, Bool.true_and]
  rw [getLsbD_packCmd _ _ _ _ _ _ (by omega)]
  simp [show ¬ 268 ≤ 12 + k by omega, show ¬ 524 ≤ 12 + k by omega, BitVec.getLsbD_of_ge op (12 + k) (by omega),
    BitVec.getLsbD_of_ge n (12 + k - 4) (by omega)]

theorem cmdB_packCmd (op : BitVec 4) (n : Cnt) (a b : Addr) (v : List Lane) : cmdB (packCmd op n a b v) = b := by
  apply BitVec.eq_of_getLsbD_eq
  intro k hk
  simp only [cmdB, BitVec.getLsbD_extractLsb', hk, decide_true, Bool.true_and]
  rw [getLsbD_packCmd _ _ _ _ _ _ (by omega)]
  simp [show ¬ 524 ≤ 268 + k by omega, BitVec.getLsbD_of_ge op (268 + k) (by omega),
    BitVec.getLsbD_of_ge n (268 + k - 4) (by omega), BitVec.getLsbD_of_ge a (268 + k - 12) (by omega)]

theorem cmdV_packCmd (op : BitVec 4) (n : Cnt) (a b : Addr) (v : List Lane) {j : Nat} (hj : j < 24) :
    cmdV (packCmd op n a b v) j = v.getD j 0 := by
  apply BitVec.eq_of_getLsbD_eq
  intro k hk
  simp only [cmdV, BitVec.getLsbD_extractLsb', hk, decide_true, Bool.true_and]
  rw [getLsbD_packCmd _ _ _ _ _ _ (by omega), show 524 + 64 * j + k - 524 = k + 64 * j by omega,
    Nat.add_mul_div_left _ _ (by omega : 0 < 64), Nat.add_mul_mod_self_left, Nat.div_eq_of_lt hk, Nat.mod_eq_of_lt hk,
    Nat.zero_add]
  simp [show 524 ≤ 524 + 64 * j + k by omega, BitVec.getLsbD_of_ge op (524 + 64 * j + k) (by omega),
    BitVec.getLsbD_of_ge n (524 + 64 * j + k - 4) (by omega), BitVec.getLsbD_of_ge a (524 + 64 * j + k - 12) (by omega),
    BitVec.getLsbD_of_ge b (524 + 64 * j + k - 268) (by omega)]

/-- The lanes of a packed word. -/
theorem cmdLanes_packCmd (op : BitVec 4) (n : Cnt) (a b : Addr) (v : List Lane) (h : v.length ≤ 24) :
    cmdLanes (packCmd op n a b v) v.length = v := by
  apply List.ext_getElem (by simp [cmdLanes])
  intro j h1 h2
  simp only [cmdLanes, List.getElem_map, List.getElem_range]
  rw [cmdV_packCmd _ _ _ _ _ (by omega)]
  simp [List.getD_eq_getElem?_getD, h2]

theorem length_pairLanes (ps : List (Lane × Lane)) : (pairLanes ps).length = 2 * ps.length := by
  induction ps with
  | nil => rfl
  | cons p ps ih => simp only [pairLanes, List.length_cons, ih]; omega

theorem getD_pairLanes (ps : List (Lane × Lane)) (k : Nat) :
    (pairLanes ps).getD (2 * k) 0 = (ps.getD k (0, 0)).1 ∧ (pairLanes ps).getD (2 * k + 1) 0 = (ps.getD k (0, 0)).2 := by
  induction ps generalizing k with
  | nil => simp [pairLanes]
  | cons p ps ih =>
    cases k with
    | zero => simp [pairLanes]
    | succ k =>
      have := ih k
      rw [show 2 * (k + 1) = 2 * k + 1 + 1 by omega]
      simpa [pairLanes] using this

end Sys2Proof
end

