-- ==== Sys2Proof/Laws/PerInstr.lean ====
section
/-! SUPPORT. What holds of every command as syntax, constructor by constructor. -/

namespace Sys2Proof.Laws.OpcodeBits

/-- The word of a command carries the command's opcode in bits 3:0 (`30_encoding.md` R62, R64). -/
def Statement (i : Instr) : Prop := cmdOp (Sys2Proof.encode i) = i.opcode

theorem encode (n : Cnt) (coords : List Lane) : Statement (.encode n coords) := cmdOp_packCmd _ _ _ _ _
theorem decode (a : Addr) : Statement (.decode a) := cmdOp_packCmd _ _ _ _ _
theorem decodeBuf (n : Cnt) (a : Addr) : Statement (.decodeBuf n a) := cmdOp_packCmd _ _ _ _ _
theorem dims (a : Addr) : Statement (.dims a) := cmdOp_packCmd _ _ _ _ _
theorem atIndex (a : Addr) (i : Lane) : Statement (.atIndex a i) := cmdOp_packCmd _ _ _ _ _
theorem isZero (a : Addr) : Statement (.isZero a) := cmdOp_packCmd _ _ _ _ _
theorem append (n : Cnt) (a : Addr) (extra : List Lane) : Statement (.append n a extra) := cmdOp_packCmd _ _ _ _ _
theorem slice (a : Addr) (lo hi : Lane) : Statement (.slice a lo hi) := cmdOp_packCmd _ _ _ _ _
theorem withCoord (a : Addr) (i value : Lane) : Statement (.withCoord a i value) := cmdOp_packCmd _ _ _ _ _
theorem equal (a b : Addr) : Statement (.equal a b) := cmdOp_packCmd _ _ _ _ _
theorem contains (a b : Addr) : Statement (.contains a b) := cmdOp_packCmd _ _ _ _ _
theorem inRange (n : Cnt) (a : Addr) (pairs : List (Lane × Lane)) : Statement (.inRange n a pairs) :=
  cmdOp_packCmd _ _ _ _ _
theorem illegal12 : Statement .illegal12 := cmdOp_packCmd _ _ _ _ _
theorem illegal13 : Statement .illegal13 := cmdOp_packCmd _ _ _ _ _
theorem illegal14 : Statement .illegal14 := cmdOp_packCmd _ _ _ _ _
theorem illegal15 : Statement .illegal15 := cmdOp_packCmd _ _ _ _ _

end Sys2Proof.Laws.OpcodeBits
end

