-- ==== Sys2Proof/Laws/State.lean ====
section
/-! SUPPORT. What each update of the state does to each field, so that no proof unfolds a record update. -/

namespace Sys2Proof.Machine

@[simp] theorem State.setRsp_rsp (s : State) (r : Response) : (s.setRsp r).rsp = some r := rfl
@[simp] theorem State.setRsp_inputs (s : State) (r : Response) : (s.setRsp r).inputs = s.inputs := rfl
@[simp] theorem State.setRsp_offered (s : State) (r : Response) : (s.setRsp r).offered = s.offered := rfl
@[simp] theorem State.setRsp_buffer (s : State) (r : Response) : (s.setRsp r).buffer = s.buffer := rfl
@[simp] theorem State.setRsp_pending (s : State) (r : Response) : (s.setRsp r).pending = s.pending := rfl
@[simp] theorem State.setRsp_received (s : State) (r : Response) : (s.setRsp r).received = s.received := rfl
@[simp] theorem State.setRsp_edges (s : State) (r : Response) : (s.setRsp r).edges = s.edges := rfl

@[simp] theorem State.passEdge_rsp (s : State) : s.passEdge.rsp = s.rsp := rfl
@[simp] theorem State.passEdge_inputs (s : State) : s.passEdge.inputs = s.inputs.tail := rfl
@[simp] theorem State.passEdge_offered (s : State) : s.passEdge.offered = s.offered := rfl
@[simp] theorem State.passEdge_buffer (s : State) : s.passEdge.buffer = s.buffer := rfl
@[simp] theorem State.passEdge_pending (s : State) : s.passEdge.pending = s.pending := rfl
@[simp] theorem State.passEdge_received (s : State) : s.passEdge.received = s.received := rfl
@[simp] theorem State.passEdge_edges (s : State) : s.passEdge.edges = s.edges + 1 := rfl

@[simp] theorem State.holdOffer_rsp (s : State) (e : Edge) : (s.holdOffer e).rsp = s.rsp := rfl
@[simp] theorem State.holdOffer_inputs (s : State) (e : Edge) : (s.holdOffer e).inputs = s.inputs := rfl
@[simp] theorem State.holdOffer_offered (s : State) (e : Edge) : (s.holdOffer e).offered = if e.cmdValid then some e.cmd else none := rfl
@[simp] theorem State.holdOffer_buffer (s : State) (e : Edge) : (s.holdOffer e).buffer = s.buffer := rfl
@[simp] theorem State.holdOffer_pending (s : State) (e : Edge) : (s.holdOffer e).pending = s.pending := rfl
@[simp] theorem State.holdOffer_received (s : State) (e : Edge) : (s.holdOffer e).received = s.received := rfl
@[simp] theorem State.holdOffer_edges (s : State) (e : Edge) : (s.holdOffer e).edges = s.edges := rfl

@[simp] theorem State.takeOffer_rsp (s : State) : s.takeOffer.rsp = s.rsp := rfl
@[simp] theorem State.takeOffer_inputs (s : State) : s.takeOffer.inputs = s.inputs := rfl
@[simp] theorem State.takeOffer_offered (s : State) : s.takeOffer.offered = none := rfl
@[simp] theorem State.takeOffer_buffer (s : State) : s.takeOffer.buffer = s.buffer := rfl
@[simp] theorem State.takeOffer_pending (s : State) : s.takeOffer.pending = s.pending := rfl
@[simp] theorem State.takeOffer_received (s : State) : s.takeOffer.received = s.received := rfl
@[simp] theorem State.takeOffer_edges (s : State) : s.takeOffer.edges = s.edges := rfl

@[simp] theorem State.resetUnit_rsp (s : State) : s.resetUnit.rsp = none := rfl
@[simp] theorem State.resetUnit_inputs (s : State) : s.resetUnit.inputs = s.inputs := rfl
@[simp] theorem State.resetUnit_offered (s : State) : s.resetUnit.offered = none := rfl
@[simp] theorem State.resetUnit_buffer (s : State) : s.resetUnit.buffer = s.buffer := rfl
@[simp] theorem State.resetUnit_pending (s : State) : s.resetUnit.pending = s.pending := rfl
@[simp] theorem State.resetUnit_received (s : State) : s.resetUnit.received = s.received := rfl
@[simp] theorem State.resetUnit_edges (s : State) : s.resetUnit.edges = s.edges := rfl

@[simp] theorem State.retire_rsp (s : State) (r : Response) : (s.retire r).rsp = none := rfl
@[simp] theorem State.retire_inputs (s : State) (r : Response) : (s.retire r).inputs = s.inputs := rfl
@[simp] theorem State.retire_offered (s : State) (r : Response) : (s.retire r).offered = s.offered := rfl
@[simp] theorem State.retire_buffer (s : State) (r : Response) : (s.retire r).buffer = s.buffer := rfl
@[simp] theorem State.retire_pending (s : State) (r : Response) : (s.retire r).pending = s.pending ++ r.writes := rfl
@[simp] theorem State.retire_received (s : State) (r : Response) : (s.retire r).received = s.received ++ [r] := rfl
@[simp] theorem State.retire_edges (s : State) (r : Response) : (s.retire r).edges = s.edges := rfl

@[simp] theorem State.touchBuffer_rsp (s : State) (e : Edge) : (s.touchBuffer e).rsp = s.rsp := rfl
@[simp] theorem State.touchBuffer_inputs (s : State) (e : Edge) : (s.touchBuffer e).inputs = s.inputs := rfl
@[simp] theorem State.touchBuffer_offered (s : State) (e : Edge) : (s.touchBuffer e).offered = s.offered := rfl
@[simp] theorem State.touchBuffer_buffer (s : State) (e : Edge) :
    (s.touchBuffer e).buffer = s.buffer.commit s.edges (s.landing e) := rfl
@[simp] theorem State.touchBuffer_pending (s : State) (e : Edge) :
    (s.touchBuffer e).pending = unpicked e.commit s.pending := rfl
@[simp] theorem State.touchBuffer_received (s : State) (e : Edge) : (s.touchBuffer e).received = s.received := rfl
@[simp] theorem State.touchBuffer_edges (s : State) (e : Edge) : (s.touchBuffer e).edges = s.edges := rfl

@[simp] theorem State.withFetchWord_rsp (s : State) (nbits w : Nat) : (s.withFetchWord nbits w).rsp = none := rfl
@[simp] theorem State.withFetchWord_inputs (s : State) (nbits w : Nat) : (s.withFetchWord nbits w).inputs = offerEdge (BitVec.ofNat 2060 (w % 2 ^ nbits)) :: s.inputs := rfl
@[simp] theorem State.withFetchWord_offered (s : State) (nbits w : Nat) : (s.withFetchWord nbits w).offered = none := rfl
@[simp] theorem State.withFetchWord_buffer (s : State) (nbits w : Nat) : (s.withFetchWord nbits w).buffer = s.buffer := rfl
@[simp] theorem State.withFetchWord_pending (s : State) (nbits w : Nat) : (s.withFetchWord nbits w).pending = s.pending := rfl
@[simp] theorem State.withFetchWord_received (s : State) (nbits w : Nat) : (s.withFetchWord nbits w).received = s.received := rfl
@[simp] theorem State.withFetchWord_edges (s : State) (nbits w : Nat) : (s.withFetchWord nbits w).edges = s.edges := rfl

end Sys2Proof.Machine
end

