-- ==== Sys2Proof/Laws/Step.lean ====
section
/-! SUPPORT. Everything one clock edge can do, said once. -/

namespace Sys2Proof.Machine

/-- An offer that is absent or kept is not broken. -/
theorem offer_kept {s : State} (h : s.offered = none ∨ s.pins.cmdValid = true ∧ s.offered = some s.pins.cmd) :
    s.offerBroken s.pins = false := by
  rcases h with h | ⟨h1, h2⟩ <;> simp [State.offerBroken, *]

theorem offerBroken_iff (s : State) (e : Edge) :
    s.offerBroken e = true ↔ ∃ w, s.offered = some w ∧ ¬ (e.cmdValid = true ∧ e.cmd = w) := by
  unfold State.offerBroken
  cases s.offered with
  | none => simp
  | some w => simp; grind

/-- The five ways a step reaches a next state: RESET, RETIRE, a response waiting, ISSUE, idle. -/
theorem step_cases {s t : State} (h : step s = .next t) :
    (s.pins.rst = true ∧ t = s.passEdge.resetUnit.touchBuffer s.pins) ∨
    (s.pins.rst = false ∧ s.offerBroken s.pins = false ∧
      ((∃ r, s.rsp = some r ∧ s.pins.rspReady = true ∧ t = ((s.passEdge.retire r).touchBuffer s.pins).holdOffer s.pins) ∨
       (∃ r, s.rsp = some r ∧ s.pins.rspReady = false ∧ t = (s.passEdge.touchBuffer s.pins).holdOffer s.pins) ∨
       (s.rsp = none ∧ s.pins.cmdValid = true ∧ exec (decode s.pins.cmd) (s.passEdge.touchBuffer s.pins).takeOffer = .next t) ∨
       (s.rsp = none ∧ s.pins.cmdValid = false ∧ t = s.passEdge.touchBuffer s.pins))) := by
  unfold step clockEdge at h
  split at h
  · rename_i h1; injection h with h; exact .inl ⟨h1, h.symm⟩
  · rename_i h1
    split at h
    · cases h
    · rename_i h2
      refine .inr ⟨by simpa using h1, by simpa using h2, ?_⟩
      split at h
      · rename_i r hr
        split at h <;> rename_i h3 <;> injection h with h
        · exact .inl ⟨r, hr, h3, h.symm⟩
        · exact .inr (.inl ⟨r, hr, by simpa using h3, h.symm⟩)
      · rename_i hr
        split at h <;> rename_i h3
        · exact .inr (.inr (.inl ⟨hr, h3, h⟩))
        · injection h with h; exact .inr (.inr (.inr ⟨hr, by simpa using h3, h.symm⟩))

/-- One step of a run, taken off its front. -/
theorem run_succ {k : Nat} {s t : State} (h : Sys2Proof.core.run (k + 1) s = .next t) :
    ∃ u, step s = .next u ∧ Sys2Proof.core.run k u = .next t := by
  have key : ∀ (M : Host.Core) (x y : M.State), M.run (k + 1) x = .next y → ∃ u, M.step x = .next u ∧ M.run k u = .next y := by
    intro M x y hxy
    simp only [Host.Core.run] at hxy
    split at hxy
    · exact ⟨_, by assumption, hxy⟩
    · cases hxy
    · cases hxy
  exact key Sys2Proof.core s t h

/-- A step in front of a run. -/
theorem run_of_step {k : Nat} {s u : State} (h : step s = .next u) :
    Sys2Proof.core.run (k + 1) s = Sys2Proof.core.run k u := by
  have key : ∀ (M : Host.Core) (x y : M.State), M.step x = .next y → M.run (k + 1) x = M.run k y := by
    intro M x y hxy
    simp only [Host.Core.run, hxy]
  exact key Sys2Proof.core s u h

end Sys2Proof.Machine
end

