-- ==== Sys2Proof/Tests/Slice0.lean ====
section
/-! SUPPORT. Tests. Every expected value is a vector of `95_test_vectors.md` (its id in the comment), or is worked by hand
from the rule named; then the witnesses of the statements' hypotheses. -/

namespace Sys2Proof.Tests

-- One theorem after another: in parallel their threads pass the checker's memory limit.
set_option Elab.async false

open Sys2Proof Sys2Proof.Machine

/-! ## Helpers -/

/-- The response a command leaves in the slot, from reset. -/
def rspOf (i : Instr) : Option Response :=
  match exec i State.reset with
  | .next t => t.rsp
  | .fault _ => none
  | .refused _ => none

/-- The response word of a command word. -/
def wordOf (w : CmdWord) : Option RspWord := (answer w).map Response.word

/-- The outcome is the given next state. -/
def isNext (o : Host.Outcome State Fault Refusal) (t : State) : Bool :=
  match o with
  | .next u => decide (u = t)
  | .fault _ => false
  | .refused _ => false

theorem eq_next {o : Host.Outcome State Fault Refusal} {t : State} (h : isNext o t = true) : o = .next t := by
  cases o with
  | next u => exact congrArg _ (of_decide_eq_true h)
  | fault f => cases h
  | refused r => cases h

/-- The lanes of a concrete list are checked one by one, not over all of `Lane`. -/
theorem inDomain_all {l : List Lane} (h : (l.all fun c => decide (InDomain c.toInt)) = true) : ∀ c ∈ l, InDomain c.toInt :=
  fun c hc => of_decide_eq_true (List.all_eq_true.1 h c hc)

/-- Reset, with the host driving one edge. -/
def driven (e : Edge) : State := { State.reset with inputs := [e] }

/-- Reset, with a response in the slot and the host driving one edge. -/
def waiting (r : Response) (e : Edge) : State := { State.reset with rsp := some r, inputs := [e] }

/-- No command offered, no response accepted. -/
def quiet : Edge := ⟨false, false, 0, false, [], []⟩

/-- The host accepts a response and commits the lanes it has. -/
def accepting : Edge := ⟨false, false, 0, true, List.range 24, []⟩

/-- The host accepts a response and commits nothing. -/
def acceptingLate : Edge := ⟨false, false, 0, true, [], []⟩

/-- The writes of the tuple [1, 2, 3] (V-DBF-1). -/
def writes123 : LaneWrites := [(0, 1), (1, 2), (2, 3)]

/-- Reset held. -/
def resetting : Edge := ⟨true, true, 0x353001, true, [], []⟩

/-- V-ENC-18: the address of twelve 1048575s. -/
def a12 : Addr := addrOfWords 0x000FFFFFFFFFFFFF 0xFFFFFFFFFFFFFFFF 0xFFFFFFFFFFFFFFFF 0xFFFFFFFFFFFFFFFC

/-! ## WellFormed: each check refuses an ill-formed term -/

theorem test_illformed_encode : (Instr.encode 3 [1, 2]).wellFormed = false := by decide
theorem test_illformed_encode_long : (Instr.encode 13 (List.replicate 13 0)).wellFormed = false := by decide
theorem test_illformed_append : (Instr.append 0 0x92 [3]).wellFormed = false := by decide
theorem test_illformed_inRange : (Instr.inRange 2 0x6BA83 [(1, 2)]).wellFormed = false := by decide

/-! ## Decoding: words written out in part 3 of the vectors, or bit by bit from R62 -/

-- P1 line 0, unabbreviated in the spec
theorem test_decode_encode :
    decode 0x30000000000000002000000000000000100000000000000000000000000000000000000000000000000000000000000000000000000000000000000000000000000000000000000000000000000000000030
      = .encode 3 [1, 2, 3] := by decide +kernel
-- P5 line 0
theorem test_decode_decode : decode 0x353001 = .decode 0x353 := by decide +kernel
-- P3 line 1
theorem test_decode_decodeBuf :
    decode 0xffffffffffffffffffffffffffffffffffffffffffffffffffffffffffffc0b2 = .decodeBuf 11 a12 := by decide +kernel
-- op 3 at 3:0, a at 267:12
theorem test_decode_dims : decode 0x353003 = .dims 0x353 := by decide +kernel
-- V-FMT-12
theorem test_decode_at : decode ((2 ^ 64 - 1) <<< 524 ||| 0x353004) = .atIndex 0x353 (-1) := by decide +kernel
-- P4 line 3
theorem test_decode_isZero : decode 0x6BA83005 = .isZero 0x6BA83 := by decide +kernel
-- P2 line 1
theorem test_decode_append :
    decode 0x300000000000000000000000000000000000000000000000000000000000000000000000000000000000000000000000000000000000000000000000000000092016
      = .append 1 0x92 [3] := by decide +kernel
-- P2 line 4
theorem test_decode_slice :
    decode 0x2000000000000000000000000000000000000000000000000000000000000000000000000000000000000000000000000000000000000000000000000000000000000000000000353007
      = .slice 0x353 0 2 := by decide +kernel
-- P1 line 1
theorem test_decode_with :
    decode 0x63000000000000000100000000000000000000000000000000000000000000000000000000000000000000000000000000000000000000000000000000000000000000000000000353008
      = .withCoord 0x353 1 99 := by decide +kernel
-- P1 line 4
theorem test_decode_equal : decode (0x900373 <<< 268 ||| 0x353009) = .equal 0x353 0x900373 := by decide +kernel
-- P2 line 2
theorem test_decode_contains :
    decode 0x353000000000000000000000000000000000000000000000000000000000000009200a = .contains 0x92 0x353 := by
  decide +kernel
-- P4 line 2
theorem test_decode_inRange :
    decode 0x13ffffffffffffffff000000000000000a000000000000000a0000000000000000000000000000000000000000000000000000000000000000000000000000000000000000000000000000000000000000000000000006ba8302b
      = .inRange 2 0x6BA83 [(10, 10), (-1, 19)] := by decide +kernel
-- V-ILL-1, V-ILL-2, V-ILL-3
theorem test_decode_illegal :
    decode 0xC = .illegal12 ∧ decode 0xF63D = .illegal13 ∧ decode 0xE = .illegal14 ∧ decode 0xF = .illegal15 := by
  decide +kernel
-- V-ENC-19: lanes at and above `n` are ignored (the third lane holds -7)
theorem test_decode_ignores_lanes :
    decode ((2 ^ 64 - 7) <<< 652 ||| 2 <<< 588 ||| 1 <<< 524 ||| 0x20) = .encode 2 [1, 2] := by decide +kernel
-- the twelfth pair of INRANGE is lanes 22 and 23 (V-FMT-5: `v[23][63]` is bit 2059); `n = 255` reads twelve pairs (D33)
theorem test_decode_inRange_last_lane :
    decode (1 <<< 2059 ||| 0xFFB) = .inRange 255 0 (List.replicate 11 ((0, 0) : Lane × Lane) ++ [((0 : Lane), (1 <<< 63 : Lane))]) := by decide +kernel
theorem test_decodeTableWord : decodeTableWord 2060 0x353001 = some (.decode 0x353) := by decide +kernel
-- 2^2060 does not fit the wires of `cmd`
theorem test_decode_too_wide : decodeNat (2 ^ 2060) = .error .tooWide := by decide +kernel
-- V-FMT-1 to V-FMT-5, through the encoder
theorem test_encode_fields :
    encode (.decodeBuf 0x81 (1 <<< 255 ||| 1)) = (1 <<< 267 ||| 1 <<< 12 ||| 0x800 ||| 0x10 ||| 0x2) ∧
    encode (.equal 0 (1 <<< 255 ||| 1)) = (1 <<< 523 ||| 1 <<< 268 ||| 0x9) := by decide +kernel

/-! ## The commands -/

-- V-ENC-6, V-ENC-16
theorem test_encode : rspOf (.encode 3 [1, 2, 3]) = some (.ok (.address 0x353)) ∧
    rspOf (.encode 12 [1, 2, 3, 4, 5, 6, 7, 8, 9, 10, 11, 12]) = some (.ok (.address 0xF80878666555C)) := by decide +kernel
-- V-ENC-18, V-ENC-23, V-ENC-24, V-ENC-26
theorem test_encode_edges : rspOf (.encode 12 (List.replicate 12 1048575)) = some (.ok (.address a12)) ∧
    rspOf (.encode 3 [7, -1, -9]) = some (.err (.coordinateOutOfRange 1 (-1))) ∧
    rspOf (.encode 1 [0x8000000000000000]) = some (.err (.coordinateOutOfRange 0 (-9223372036854775808))) ∧
    rspOf (.encode 13 (List.replicate 12 (-1))) = some (.err (.dimensionLimitExceeded 13)) := by decide +kernel
-- V-DEC-2, V-DEC-5, V-DEC-7
theorem test_decode : rspOf (.decode 0x353) = some (.ok (.tuple [1, 2, 3])) ∧
    rspOf (.decode 0x1553) = some (.ok (.tuple [5, 2, 5])) ∧
    rspOf (.decode (0x353 + 1 <<< 64)) = some (.ok (.tuple [1, 2, 3])) := by decide +kernel
-- V-DEC-4, V-DEC-9, V-DEC-11
theorem test_decode_edges : rspOf (.decode a12) = some (.ok (.tuple (List.replicate 12 1048575))) ∧
    rspOf (.decode 0xD) = some (.err (.malformedAddress .a 13)) ∧
    rspOf (.decode (BitVec.allOnes 256)) = some (.err (.malformedAddress .a 15)) := by decide +kernel
-- V-DBF-1, V-DBF-4
theorem test_decodeBuf : rspOf (.decodeBuf 3 0x353) = some (.ok (.bufWrites [1, 2, 3])) ∧
    rspOf (.decodeBuf 200 0x353) = some (.ok (.bufWrites [1, 2, 3])) := by decide +kernel
-- V-DBF-2, V-DBF-5, V-DBF-8
theorem test_decodeBuf_edges : rspOf (.decodeBuf 2 0x353) = some (.err (.bufferTooSmall 3 2)) ∧
    rspOf (.decodeBuf 0 0) = some (.ok (.bufWrites [])) ∧
    rspOf (.decodeBuf 0 0xD) = some (.err (.malformedAddress .a 13)) := by decide +kernel
-- V-DIM-3, V-DIM-5, V-DIM-6
theorem test_dims : rspOf (.dims 0xFFFC) = some (.ok (.count 12)) ∧
    rspOf (.dims (BitVec.allOnes 256)) = some (.ok (.count 15)) ∧ rspOf (.dims 0x350) = some (.ok (.count 0)) := by
  decide +kernel
-- V-AT-1, V-AT-5
theorem test_at : rspOf (.atIndex 0x353 1) = some (.ok (.coordinate 2)) ∧
    rspOf (.atIndex 0xF80878666555C 11) = some (.ok (.coordinate 12)) := by decide +kernel
-- V-AT-2, V-AT-3, V-AT-8
theorem test_at_edges : rspOf (.atIndex 0x353 3) = some (.err (.indexOutOfRange 3 3)) ∧
    rspOf (.atIndex 0x353 (-1)) = some (.err (.indexOutOfRange (-1) 3)) ∧
    rspOf (.atIndex 0xE 0) = some (.err (.malformedAddress .a 14)) := by decide +kernel
-- V-ZER-2, V-ZER-5, V-ZER-6
theorem test_isZero : rspOf (.isZero 0x3) = some (.ok (.flag true)) ∧ rspOf (.isZero 0x800C) = some (.ok (.flag false)) ∧
    rspOf (.isZero 0x800001) = some (.ok (.flag false)) := by decide +kernel
-- V-ZER-7, V-ZER-9
theorem test_isZero_edges : rspOf (.isZero 0x1000001) = some (.ok (.flag true)) ∧
    rspOf (.isZero 0xF) = some (.err (.malformedAddress .a 15)) := by decide +kernel
-- V-APP-1, V-APP-4, V-APP-5
theorem test_append : rspOf (.append 1 0x92 [3]) = some (.ok (.address 0x353)) ∧
    rspOf (.append 0 (0x353 + 1 <<< 200) []) = some (.ok (.address 0x353)) ∧
    rspOf (.append 1 0x7FFB [7]) = some (.ok (.address 0x800800FFFC)) := by decide +kernel
-- V-APP-9, V-APP-11, V-APP-12, V-APP-13
theorem test_append_edges : rspOf (.append 2 0x92 [3, 1048576]) = some (.err (.coordinateOutOfRange 3 1048576)) ∧
    rspOf (.append 2 0x7FFB [-1, 5]) = some (.err (.dimensionLimitExceeded 13)) ∧
    rspOf (.append 255 0x353 (List.replicate 12 0)) = some (.err (.dimensionLimitExceeded 258)) ∧
    rspOf (.append 1 0xD [1]) = some (.err (.malformedAddress .a 13)) := by decide +kernel
-- V-SLC-1, V-SLC-4, V-SLC-11
theorem test_slice : rspOf (.slice 0x353 1 3) = some (.ok (.address 0xE2)) ∧
    rspOf (.slice 0x353 3 3) = some (.ok (.address 0)) ∧
    rspOf (.slice 0xF80878666555C 3 9) = some (.ok (.address 0xC0F32A6)) := by decide +kernel
-- V-SLC-5, V-SLC-6, V-SLC-7, V-SLC-12
theorem test_slice_edges : rspOf (.slice 0x353 2 1) = some (.err (.rangeInvalid 2 1 3)) ∧
    rspOf (.slice 0x353 (-1) 2) = some (.err (.rangeInvalid (-1) 2 3)) ∧
    rspOf (.slice 0x353 0 4) = some (.err (.rangeInvalid 0 4 3)) ∧
    rspOf (.slice 0xF 0 0) = some (.err (.malformedAddress .a 15)) := by decide +kernel
-- V-WTH-1, V-WTH-2, V-WTH-3
theorem test_with : rspOf (.withCoord 0x353 1 99) = some (.ok (.address 0x900373)) ∧
    rspOf (.withCoord 0x353 0 0) = some (.ok (.address 0x343)) ∧
    rspOf (.withCoord 0x353 2 1048575) = some (.ok (.address 0x9249249249249353)) := by decide +kernel
-- R123: "With both `i` and `value` bad, IndexOutOfRange is reported"; "`1048576` and `-1` are refused"
theorem test_with_edges : rspOf (.withCoord 0x353 3 (-1)) = some (.err (.indexOutOfRange 3 3)) ∧
    rspOf (.withCoord 0x353 1 1048576) = some (.err (.coordinateOutOfRange 1 1048576)) := by decide +kernel
-- V-EQ-3 (EQUAL sees a stray bit), V-EQ-4, V-EQ-6
theorem test_equal : rspOf (.equal 0x353 (0x353 + 1 <<< 255)) = some (.ok (.flag false)) ∧
    rspOf (.equal 0xD 0xD) = some (.ok (.flag true)) ∧ rspOf (.equal 0x92 0x113) = some (.ok (.flag false)) := by
  decide +kernel
-- V-CON-1, V-CON-2, V-CON-7, V-CON-13
theorem test_contains : rspOf (.contains 0x92 0x353) = some (.ok (.flag true)) ∧
    rspOf (.contains 0x353 0x92) = some (.ok (.flag false)) ∧
    rspOf (.contains 0xB2 0x353) = some (.ok (.flag false)) ∧
    rspOf (.contains (0x92 + 1 <<< 100) 0x353) = some (.ok (.flag true)) := by decide +kernel
-- V-CON-11, V-CON-12
theorem test_contains_edges : rspOf (.contains 0x353 0xE) = some (.err (.malformedAddress .b 14)) ∧
    rspOf (.contains 0xD 0xE) = some (.err (.malformedAddress .a 13)) := by decide +kernel
-- V-RNG-1, V-RNG-3, V-RNG-4, V-RNG-6
theorem test_inRange : rspOf (.inRange 3 0x6BA83 [(-1, -1), (-1, -1), (-1, -1)]) = some (.ok (.flag true)) ∧
    rspOf (.inRange 2 0x6BA83 [(10, 10), (-1, 19)]) = some (.ok (.flag false)) ∧
    rspOf (.inRange 2 0x6BA83 [(10, 10), (-1, 20)]) = some (.ok (.flag true)) ∧
    rspOf (.inRange 1 0x6BA83 [(11, -1)]) = some (.ok (.flag false)) := by decide +kernel
-- V-RNG-10, V-RNG-12, V-RNG-13, V-RNG-18
theorem test_inRange_edges :
    rspOf (.inRange 5 0x6BA83 [(-1, -1), (-1, -1), (-1, -1), (99, 0), (99, 0)]) = some (.ok (.flag true)) ∧
    rspOf (.inRange 1 0x6BA83 [(-2, -1)]) = some (.ok (.flag true)) ∧
    rspOf (.inRange 1 0x6BA83 [(-1, -2)]) = some (.ok (.flag false)) ∧
    rspOf (.inRange 0 0xF []) = some (.err (.malformedAddress .a 15)) := by decide +kernel
-- V-ILL-1 to V-ILL-3
theorem test_illegal : rspOf .illegal12 = some (.err (.illegalOp 12)) ∧ rspOf .illegal13 = some (.err (.illegalOp 13)) ∧
    rspOf .illegal14 = some (.err (.illegalOp 14)) ∧ rspOf .illegal15 = some (.err (.illegalOp 15)) := by decide +kernel

/-! ## The response word, from the command word -/

-- P1 line 0
theorem test_word_address :
    wordOf (3 <<< 652 ||| 2 <<< 588 ||| 1 <<< 524 ||| 0x30) = some 0x6A6000000 := by decide +kernel
-- P5 line 0
theorem test_word_tuple :
    wordOf 0x353001
      = some 0x600000000000000040000000000000002000000000000000000000000000000000000000000000000000000000000000000e060 := by
  decide +kernel
-- V-FMT-11, V-FMT-12, V-FMT-13, V-ILL-2
theorem test_word_small : wordOf 0xE001 = some (14 <<< 1113 ||| 6) ∧
    wordOf ((2 ^ 64 - 1) <<< 524 ||| 0x353004) = some (3 <<< 1113 ||| (2 ^ 64 - 1) <<< 1049 ||| 3) ∧
    wordOf (a12.setWidth 2060 <<< 12 ||| 3) = some 0x180 ∧ wordOf 0xF63D = some (13 <<< 1049 ||| 7) := by decide +kernel
-- P1 line 2, P2 line 2, P3 line 4
theorem test_word_more : wordOf (1 <<< 524 ||| 0x353004) = some (2 <<< 281) ∧
    wordOf (0x353 <<< 268 ||| 0x9200A) = some 0x10 ∧
    wordOf (0x100000 <<< 588 ||| 5 <<< 524 ||| 0x20) =
      some (1048575 <<< 1241 ||| 1048576 <<< 1113 ||| 1 <<< 1049 ||| 2) := by decide +kernel
-- V-FMT-6 to V-FMT-10
theorem test_unpack : (unpackRsp 0x10).flag = true ∧ (unpackRsp 0x20).cnt = 1 ∧ (unpackRsp 0x1000000).we = 0x800 ∧
    (unpackRsp (1 <<< 280)).ra = 1 <<< 255 ∧ (unpackRsp (1 <<< 1048)).r[11] = 1 <<< 63 ∧
    (unpackRsp (1 <<< 1304)).info[3] = 1 <<< 63 := by decide +kernel
-- S12
theorem test_format : (rspOf (.decode 0x353)).bind Response.format = some "Addr[1 2 3]" ∧
    (rspOf (.decode 0)).bind Response.format = some "Addr[]" := by decide +kernel

/-! ## The clock -/

-- R29 ISSUE, through `withFetchWord` (V-DEC-9)
theorem test_step_issue :
    step (State.reset.withFetchWord 2060 0xD001) =
      .next { State.reset with rsp := some (.err (.malformedAddress .a 13)), edges := 1 } :=
  eq_next (by decide +kernel)
-- R29 RETIRE and R49, P3 line 2: the host's buffer of 14 cells, all 7, cells 12 and 13 never written
theorem test_step_retire :
    step { waiting (.ok (.bufWrites (List.replicate 12 1048575))) accepting with
           buffer := (List.range 14).map fun i => (i, 7) } =
      .next { State.reset with
              buffer := ((List.range 12).map fun i => (i, 1048575)) ++ [(12, 7), (13, 7)],
              received := [.ok (.bufWrites (List.replicate 12 1048575))], edges := 1 } :=
  eq_next (by decide +kernel)
-- R50, V-DBF-1: the host receives the lanes and commits them at a later edge; lane by lane, if it likes
theorem test_step_retire_late :
    step (waiting (.ok (.bufWrites [1, 2, 3])) acceptingLate) =
      .next { State.reset with pending := writes123, received := [.ok (.bufWrites [1, 2, 3])], edges := 1 } ∧
    step { driven { quiet with commit := [0, 2] } with pending := writes123, buffer := [(0, 7), (1, 7)] } =
      .next { State.reset with pending := [(1, 2)], buffer := [(0, 1), (1, 7), (2, 3)], edges := 1 } :=
  ⟨eq_next (by decide +kernel), eq_next (by decide +kernel)⟩
-- R196: the lanes of [5, 2] are committed late, together with those of [4, 2, 9]: cell 1 is written twice with one value,
-- cell 2 once; cell 0 is shared and is left to `witness_LateLanesRaceWithTheNextResponse`
theorem test_unordered_commit :
    (Buffer.commit 5 [] [(0, 5), (1, 2), (0, 4), (1, 2), (2, 9)]).read 1 = some 2 ∧
    (Buffer.commit 5 [] [(0, 5), (1, 2), (0, 4), (1, 2), (2, 9)]).read 2 = some 9 ∧
    (Buffer.commit 5 [] [(0, 5), (1, 2), (0, 4), (1, 2), (2, 9)]).read 3 = none := by
  simp [Buffer.read_commit, valuesFor, raceValue, Buffer.read]
-- R191: a response waiting is discarded, the command on the pins is ignored
theorem test_step_reset : step (waiting (.ok (.flag true)) resetting) = .next { State.reset with edges := 1 } :=
  eq_next (by decide +kernel)

-- R198: an offer made while a response waits stands at the next edge, and withdrawing it there is refused
theorem test_step_wait_keeps_offer : step (waiting (.ok (.flag true)) (offerEdge 0x5)) =
    .next { State.reset with rsp := some (.ok (.flag true)), offered := some 0x5, edges := 1 } :=
  eq_next (by decide +kernel)

/-! ## Witnesses: states and operands that meet the hypotheses of the statements, clause by clause -/

theorem witness_DecodeOfEncodeIsTheCommand : (Instr.encode 12 (List.replicate 12 5)).wellFormed = true ∧
    (Instr.append 255 0 (List.replicate 12 5)).wellFormed = true ∧
    (Instr.inRange 0 0 []).wellFormed = true := by decide

/-- Two different words that agree on the bits DECODE reads. -/
theorem witness_UnreadBitsDoNotChangeTheResponse :
    (∀ k, k < 2060 → readsBit 0x353001 k = true → (1 <<< 2059 ||| 1 <<< 4 ||| 0x353001 : CmdWord).getLsbD k =
      (0x353001 : CmdWord).getLsbD k) ∧ (1 <<< 2059 ||| 1 <<< 4 ||| 0x353001 : CmdWord) ≠ 0x353001 := by decide +kernel

theorem witness_ErrorWordDeterminesItsRecord : (Response.err (.illegalOp 15)).Legal ∧ (Response.err (.bufferTooSmall 12 11)).Legal ∧
    (Response.err (.illegalOp 15)).word = (Response.err (.illegalOp 15)).word := by
  exact ⟨⟨by decide, by decide⟩, ⟨by decide, by decide⟩, rfl⟩

theorem witness_EncodeAnswers_word : cmdOp 0x30 = 0 := by decide +kernel
theorem witness_EncodeAnswers_long : (Instr.encode 13 (List.replicate 12 0)).wellFormed = true ∧ 12 < (13 : Cnt).toNat := by
  decide +kernel
theorem witness_EncodeAnswers_bad : (Instr.encode 2 [1048575, 1048576]).wellFormed = true ∧ (2 : Cnt).toNat ≤ 12 ∧
    1 < (2 : Cnt).toNat ∧ ¬ InDomain (([1048575, 1048576] : List Lane).getD 1 0).toInt ∧
    ∀ k, k < 1 → InDomain (([1048575, 1048576] : List Lane).getD k 0).toInt := by decide +kernel
theorem witness_EncodeAnswers_good : (Instr.encode 12 (List.replicate 12 1048575)).wellFormed = true ∧ (12 : Cnt).toNat ≤ 12 ∧
    ∀ c ∈ List.replicate 12 (1048575 : Lane), InDomain c.toInt := by
  refine ⟨by decide, by decide, inDomain_all (by decide +kernel)⟩
theorem witness_EncodeAddressBitByBit : (Instr.encode 0 []).wellFormed = true ∧ (0 : Cnt).toNat ≤ 12 ∧
    ∀ c ∈ ([] : List Lane), InDomain c.toInt := ⟨by decide, by decide, inDomain_all rfl⟩
/-- Both ends of the three ranges of an ENCODE's address bits, with two coordinates. -/
theorem witness_EncodeAddressBitByBit_ranges : 3 < 4 ∧ (4 ≤ 4 ∧ 43 < 4 + 20 * (2 : Cnt).toNat) ∧ 4 + 20 * (2 : Cnt).toNat ≤ 44 := by
  decide +kernel

theorem witness_DecodeAnswers : cmdOp 0x353001 = 1 ∧ 12 < hdr 0xD ∧ hdr 0xC ≤ 12 := by decide +kernel
theorem witness_DecodeBufAnswers : cmdOp 0x353032 = 2 ∧ 12 < hdr 0xD ∧ (hdr 0xC ≤ 12 ∧ (11 : Cnt).toNat < hdr 0xC) ∧
    (hdr 0xC ≤ 12 ∧ hdr 0xC ≤ (12 : Cnt).toNat) := by decide +kernel
theorem witness_DimsAnswers : cmdOp 0x353003 = 3 := by decide +kernel
theorem witness_AtAnswers : cmdOp 0x353004 = 4 ∧ 12 < hdr 0xD ∧
    (hdr 0xC ≤ 12 ∧ ((-1 : Lane).toInt < 0 ∨ (hdr 0xC : Int) ≤ (-1 : Lane).toInt)) ∧
    (hdr 0xC ≤ 12 ∧ ((12 : Lane).toInt < 0 ∨ (hdr 0xC : Int) ≤ (12 : Lane).toInt)) ∧
    (hdr 0xC ≤ 12 ∧ 0 ≤ (11 : Lane).toInt ∧ (11 : Lane).toInt < hdr 0xC) ∧
    (hdr 0x1 ≤ 12 ∧ 0 ≤ (0 : Lane).toInt ∧ (0 : Lane).toInt < hdr 0x1) := by decide +kernel
theorem witness_CoordinateBitsAreAddressBits : 19 < 20 ∧ (a12.getLsbD (4 + 19 * hdr a12 + 11) = true) := by decide +kernel
theorem witness_IsZeroAnswers : cmdOp 0x5 = 5 ∧ 12 < hdr 0xD ∧ hdr 0xC ≤ 12 := by decide +kernel
/-- Both ends of the coordinate field, for one dimension and for twelve. -/
theorem witness_IsZeroTestsTheCoordinateField : hdr 0x1 ≤ 12 ∧ (4 ≤ 4 ∧ 23 ≤ 3 + 20 * hdr 0x1) ∧ hdr 0xC ≤ 12 ∧
    (4 ≤ 243 ∧ 243 ≤ 3 + 20 * hdr 0xC) := by decide +kernel
theorem witness_AppendAnswers_word : cmdOp 0x92016 = 6 := by decide +kernel
theorem witness_AppendAnswers_malformed : (Instr.append 1 0xD [1]).wellFormed = true ∧ 12 < hdr 0xD := by decide +kernel
theorem witness_AppendAnswers_long :
    (Instr.append 1 0xC [1]).wellFormed = true ∧ hdr 0xC ≤ 12 ∧ 12 < hdr 0xC + (1 : Cnt).toNat := by decide +kernel
theorem witness_AppendAnswers_bad : (Instr.append 2 0xA [0, -1]).wellFormed = true ∧ hdr 0xA + (2 : Cnt).toNat ≤ 12 ∧
    1 < (2 : Cnt).toNat ∧ ¬ InDomain (([0, -1] : List Lane).getD 1 0).toInt ∧
    ∀ k, k < 1 → InDomain (([0, -1] : List Lane).getD k 0).toInt := by decide +kernel
theorem witness_AppendAnswers_good : (Instr.append 2 0xA [0, 1048575]).wellFormed = true ∧ hdr 0xA + (2 : Cnt).toNat ≤ 12 ∧
    ∀ c ∈ ([0, 1048575] : List Lane), InDomain c.toInt :=
  ⟨by decide +kernel, by decide +kernel, inDomain_all (by decide +kernel)⟩
theorem witness_SliceAnswers : cmdOp 0x353007 = 7 ∧ 12 < hdr 0xD ∧
    (hdr 0xC ≤ 12 ∧ ¬ (0 ≤ (0 : Lane).toInt ∧ (0 : Lane).toInt ≤ (13 : Lane).toInt ∧ (13 : Lane).toInt ≤ hdr 0xC)) ∧
    (hdr 0xC ≤ 12 ∧ 0 ≤ (12 : Lane).toInt ∧ (12 : Lane).toInt ≤ (12 : Lane).toInt ∧ (12 : Lane).toInt ≤ hdr 0xC) := by
  decide +kernel
theorem witness_WithAnswers : cmdOp 0x353008 = 8 ∧ 12 < hdr 0xD ∧
    (hdr 0xC ≤ 12 ∧ ((12 : Lane).toInt < 0 ∨ (hdr 0xC : Int) ≤ (12 : Lane).toInt)) ∧
    (hdr 0xC ≤ 12 ∧ 0 ≤ (11 : Lane).toInt ∧ (11 : Lane).toInt < hdr 0xC ∧ ¬ InDomain (1048576 : Lane).toInt) ∧
    (hdr 0xC ≤ 12 ∧ 0 ≤ (0 : Lane).toInt ∧ (0 : Lane).toInt < hdr 0xC ∧ InDomain (1048575 : Lane).toInt) := by decide +kernel

theorem canonical_353 : Canonical 0x353 := by
  refine ⟨by decide +kernel, fun k h1 h2 => ?_⟩
  have : ∀ k, k < 256 → 64 ≤ k → (0x353 : Addr).getLsbD k = false := by decide +kernel
  rw [show hdr (0x353 : Addr) = 3 by decide +kernel] at h1
  exact this k (by omega) (by omega)

/-- The empty address, the least canonical one. -/
theorem canonical_zero : Canonical 0 := ⟨by decide +kernel, fun k _ _ => by simp⟩

theorem witness_WithChangesOnlyItsCoordinatesBits : Canonical 0x353 ∧ 0 ≤ (2 : Lane).toInt ∧ (2 : Lane).toInt < hdr 0x353 ∧
    InDomain (1048575 : Lane).toInt ∧ 19 < 20 ∧ ∀ p, p < 20 → 64 ≠ 4 + p * hdr 0x353 + (2 : Lane).toInt.toNat := by
  refine ⟨canonical_353, by decide +kernel⟩
theorem witness_EqualAnswers : cmdOp 0x353009 = 9 := by decide +kernel
theorem witness_ContainsAnswers : cmdOp 0x9200A = 10 ∧ 12 < hdr 0xD ∧ (hdr 0xC ≤ 12 ∧ 12 < hdr 0xF) ∧
    (hdr 0xC ≤ 12 ∧ hdr 0x0 ≤ 12) := by decide +kernel
/-- Three addresses of at most 12 dimensions, each a prefix of the next; and one contained both ways. -/
theorem witness_ContainsIsAPrefixOrder : hdr 0x0 ≤ 12 ∧ hdr 0x92 ≤ 12 ∧ hdr 0x353 ≤ 12 ∧
    exec (.contains 0x0 0x92) State.reset = .next { State.reset with rsp := some (.ok (.flag true)) } ∧
    exec (.contains 0x92 0x353) State.reset = .next { State.reset with rsp := some (.ok (.flag true)) } ∧
    exec (.contains 0x92 0x92) State.reset = .next { State.reset with rsp := some (.ok (.flag true)) } :=
  ⟨by decide +kernel, by decide +kernel, by decide +kernel, eq_next (by decide +kernel), eq_next (by decide +kernel), eq_next (by decide +kernel)⟩
theorem witness_InRangeAnswers : cmdOp 0x6BA8303B = 11 ∧ 12 < hdr 0xD ∧ hdr 0xC ≤ 12 ∧ 2 < (3 : Cnt).toNat ∧ 2 < hdr 0x6BA83 := by
  decide +kernel
theorem witness_IllegalOpcodesAnswerIllegalOp : 12 ≤ (cmdOp 0xC).toNat ∧ 12 ≤ (cmdOp (BitVec.allOnes 2060)).toNat := by decide +kernel
theorem witness_DimensionLimitCause_CoordinateOutOfRangeCause : (Instr.append 255 0xC (List.replicate 12 0)).wellFormed = true ∧
    (Instr.encode 1 [-1]).wellFormed = true ∧ (Instr.isZero 0xF).wellFormed = true := by decide +kernel

theorem witness_StatusesStayInTheTable : ∃ t, exec (.slice 0x353 2 1) State.reset = .next t ∧
    t.rsp = some (.err (.rangeInvalid 2 1 3)) :=
  ⟨{ State.reset with rsp := some (.err (.rangeInvalid 2 1 3)) }, eq_next (by decide +kernel), rfl⟩
theorem witness_AddressAnswersAreCanonical : ∃ t, exec (decode (1 <<< 588 ||| 0x353007)) State.reset = .next t ∧
    t.rsp = some (.ok (.address 0x11)) :=
  ⟨{ State.reset with rsp := some (.ok (.address 0x11)) }, eq_next (by decide +kernel), rfl⟩
theorem witness_WholeSliceAndEmptyAppendCanonicalise : hdr (0x35C : Addr) ≤ 12 ∧ hdr (0 : Addr) ≤ 12 := by decide +kernel
theorem witness_StrayBitsAreIgnoredByDecoders : hdr (0x353 : Addr) ≤ 12 ∧ (0x353 + 1 <<< 64 : Addr) ≠ 0x353 ∧
    ∀ k, k < 4 + 20 * hdr (0x353 : Addr) → (0x353 + 1 <<< 64 : Addr).getLsbD k = (0x353 : Addr).getLsbD k := by
  decide +kernel
/-- One canonical operand meets the hypothesis of every arm. -/
theorem witness_CanonicalOperandsAreNeverMalformed : Canonical 0x353 ∧ Canonical 0 ∧
    ∃ t, exec (.contains 0x353 0) State.reset = .next t :=
  ⟨canonical_353, canonical_zero, { State.reset with rsp := some (.ok (.flag false)) }, eq_next (by decide +kernel)⟩
theorem witness_EqualOnCanonicalOperandsComparesTuples : Canonical 0x353 ∧ Canonical 0 := ⟨canonical_353, canonical_zero⟩
/-- Two addresses that agree on the bits the decode loop reads. -/
theorem witness_DecodeLoopReadsTheFormula : hdr (0x353 : Addr) ≤ 12 ∧ 2 < hdr (0x353 : Addr) ∧
    ∀ k, k < 4 + 20 * hdr (0x353 : Addr) → (0x353 + 1 <<< 64 : Addr).getLsbD k = (0x353 : Addr).getLsbD k := by
  decide +kernel
theorem witness_RoundTripLaws : (List.replicate 12 1048575).length ≤ 12 ∧ (∀ c ∈ List.replicate 12 1048575, c ≤ 1048575) ∧
    ([] : List Nat).length ≤ 12 ∧ hdr 0xC ≤ 12 := by decide +kernel
theorem witness_EncodingIsInjective : [0, 5].length ≤ 12 ∧ [5, 0].length ≤ 12 ∧ (∀ c ∈ [0, 5], c ≤ 1048575) ∧
    ∀ c ∈ [5, 0], c ≤ 1048575 := by decide +kernel
theorem witness_AddressIsItsFourWords : 255 < 256 ∧ 0 < 256 := by decide +kernel
theorem witness_OffsetsFillTheCoordinateField : (1 ≤ 12 ∧ 12 ≤ 12 ∧ 19 < 20 ∧ 11 < 12) ∧ (4 ≤ 243 ∧ 243 ≤ 3 + 20 * 12) ∧ 1 ≤ 1 := by decide +kernel

theorem witness_StepRunsTheOfferedCommand : (driven (offerEdge 0x353001)).rsp = none ∧ (driven (offerEdge 0x353001)).pins.rst = false ∧
    (driven (offerEdge 0x353001)).pins.cmdValid = true ∧ (driven (offerEdge 0x353001)).offered = none ∧
    decode (driven (offerEdge 0x353001)).pins.cmd = .decode 0x353 := by decide +kernel
/-- The other offer: the command stood on the pins before. -/
theorem witness_StepRunsTheOfferedCommand_held :
    { driven (offerEdge 0x353001) with offered := some 0x353001 }.offered =
      some { driven (offerEdge 0x353001) with offered := some 0x353001 }.pins.cmd := rfl
theorem witness_StepRetiresTheResponse : (waiting (.ok (.flag true)) accepting).rsp = some (.ok (.flag true)) ∧
    (waiting (.ok (.flag true)) accepting).pins.rst = false ∧
    (waiting (.ok (.flag true)) accepting).pins.rspReady = true ∧
    (waiting (.ok (.flag true)) accepting).offered = none := by decide +kernel
theorem witness_StepWaitsOtherwise :
    ((waiting (.ok (.flag true)) quiet).pins.rst = false ∧ (waiting (.ok (.flag true)) quiet).offered = none ∧
      (waiting (.ok (.flag true)) quiet).rsp.isSome = true ∧ (waiting (.ok (.flag true)) quiet).pins.rspReady = false) ∧
    ((driven quiet).pins.rst = false ∧ (driven quiet).offered = none ∧ (driven quiet).rsp = none ∧
      (driven quiet).pins.cmdValid = false) := by decide +kernel
/-- A response waits and is not accepted while the host offers a command, newly and again: the clause about the offer. -/
theorem witness_StepWaitsOtherwise_offer :
    ((waiting (.ok (.flag true)) (offerEdge 0x5)).pins.rst = false ∧
      (waiting (.ok (.flag true)) (offerEdge 0x5)).offered = none ∧
      (waiting (.ok (.flag true)) (offerEdge 0x5)).rsp.isSome = true ∧
      (waiting (.ok (.flag true)) (offerEdge 0x5)).pins.rspReady = false ∧
      (waiting (.ok (.flag true)) (offerEdge 0x5)).pins.cmdValid = true) ∧
    { waiting (.ok (.flag true)) (offerEdge 0x5) with offered := some 0x5 }.offered =
      some { waiting (.ok (.flag true)) (offerEdge 0x5) with offered := some 0x5 }.pins.cmd := by decide +kernel
theorem witness_StepResetsTheUnit : (waiting (.ok (.flag true)) resetting).pins.rst = true := rfl
/-- Offered 0x353001 at the last edge: withdrawn at this one; changed at this one; kept at this one. -/
theorem witness_StepStopsOnlyOnAChangedOffer :
    ({ driven quiet with offered := some 0x353001 }.pins.rst = false ∧
      { driven quiet with offered := some 0x353001 }.pins.cmdValid = false) ∧
    ({ driven (offerEdge 0x5) with offered := some 0x353001 }.pins.rst = false ∧
      { driven (offerEdge 0x5) with offered := some 0x353001 }.pins.cmd ≠ 0x353001) ∧
    ({ driven (offerEdge 0x353001) with offered := some 0x353001 }.pins.cmdValid = true ∧
      { driven (offerEdge 0x353001) with offered := some 0x353001 }.pins.cmd = 0x353001) := by decide +kernel
/-- An ISSUE, a RETIRE and a RESET, each with its next state. -/
theorem witness_OnlyIssueRetireResetChangeTheSlot :
    step (driven (offerEdge 0x5)) = .next { State.reset with rsp := some (.ok (.flag true)), edges := 1 } ∧
    step (waiting (.ok (.bufWrites [9])) accepting) =
      .next { State.reset with buffer := [(0, 9)], received := [.ok (.bufWrites [9])], edges := 1 } ∧
    step (waiting (.ok (.flag true)) resetting) = .next { State.reset with edges := 1 } :=
  ⟨eq_next (by decide +kernel), eq_next (by decide +kernel), eq_next (by decide +kernel)⟩
theorem witness_RetiringDecodeBufWritesItsCells :
    (waiting (.ok (.bufWrites [9])) accepting).rsp = some (.ok (.bufWrites [9])) ∧
    (waiting (.ok (.bufWrites [9])) accepting).pins.rst = false ∧
    (waiting (.ok (.bufWrites [9])) accepting).pins.rspReady = true ∧
    (waiting (.ok (.bufWrites [9])) accepting).offered = none ∧
    (waiting (.ok (.bufWrites [9])) accepting).pending = [] ∧ (waiting (.ok (.bufWrites [9])) accepting).pins.others = [] ∧
    (∀ k, k < [9].length → k ∈ (waiting (.ok (.bufWrites [9])) accepting).pins.commit) ∧ 0 < [9].length ∧
    [9].length ≤ 1 := by decide +kernel
/-- Cell 0 is written with two values, cell 1 with one value twice, cell 2 once, cell 3 not at all. -/
theorem witness_SharedCellsHoldOneOfTheWrittenValues :
    (0, 5) ∈ ([(0, 5), (1, 2), (0, 4), (1, 2), (2, 9)] : LaneWrites) ∧
    (0, 4) ∈ ([(0, 5), (1, 2), (0, 4), (1, 2), (2, 9)] : LaneWrites) ∧
    (1, 2) ∈ ([(0, 5), (1, 2), (0, 4), (1, 2), (2, 9)] : LaneWrites) ∧
    (∀ v : Lane, (1, v) ∈ ([(0, 5), (1, 2), (0, 4), (1, 2), (2, 9)] : LaneWrites) → v = 2) ∧
    ∀ v : Lane, (3, v) ∉ ([(0, 5), (1, 2), (0, 4), (1, 2), (2, 9)] : LaneWrites) := by simp
/-- Lanes of [5, 2] left over, [4, 2, 9] received: at one edge the host commits nothing, at the other everything; cells 0 and
1 are shared, cell 2 is the later response's, and of [5, 2] over [4] cell 1 is the earlier one's. -/
theorem witness_LateLanesRaceWithTheNextResponse :
    ({ waiting (.ok (.bufWrites [4, 2, 9])) acceptingLate with pending := tupleWrites [5, 2] }.pins.rst = false ∧
      { waiting (.ok (.bufWrites [4, 2, 9])) acceptingLate with pending := tupleWrites [5, 2] }.pins.rspReady = true ∧
      { waiting (.ok (.bufWrites [4, 2, 9])) acceptingLate with pending := tupleWrites [5, 2] }.offered = none ∧
      { waiting (.ok (.bufWrites [4, 2, 9])) acceptingLate with pending := tupleWrites [5, 2] }.pins.others = [] ∧
      { waiting (.ok (.bufWrites [4, 2, 9])) acceptingLate with pending := tupleWrites [5, 2] }.pins.commit = []) ∧
    (∀ k, k < [5, 2].length + [4, 2, 9].length →
      k ∈ { waiting (.ok (.bufWrites [4, 2, 9])) accepting with pending := tupleWrites [5, 2] }.pins.commit) ∧
    (0 < [5, 2].length ∧ 0 < [4, 2, 9].length) ∧ ([5, 2].length ≤ 2 ∧ 2 < [4, 2, 9].length) ∧
    (1 < [5, 2].length ∧ [4].length ≤ 1) ∧ ([5, 2].length ≤ 3 ∧ [4, 2, 9].length ≤ 3) := by decide +kernel
theorem witness_OutputPinsShowTheSlot : (waiting (.ok (.count 3)) quiet).rsp = some (.ok (.count 3)) := rfl
theorem witness_OfferedCommandIsAnsweredOnce : State.reset.rsp = none ∧ State.reset.offered = none ∧
    accepting.rst = false ∧ accepting.rspReady = true := by decide +kernel
theorem witness_CommandPinsUnreadWithoutValid : quiet.cmdValid = false := rfl
/-- A state with a response waiting, one received, a lane to commit and a buffer cell known meets the invariant, and steps. -/
theorem witness_EveryStepKeepsTheInvariant : ∃ s t : State, s.Inv ∧ s.rsp = some (.ok (.bufWrites [9])) ∧ step s = .next t :=
  ⟨{ waiting (.ok (.bufWrites [9])) accepting with
      received := [.err (.illegalOp 12)], pending := [(11, 1048575)], buffer := [(3, 7)] },
    { State.reset with
      received := [.err (.illegalOp 12), .ok (.bufWrites [9])], buffer := [(0, 9), (3, 7), (11, 1048575)], edges := 1 },
    ⟨fun r h => by cases h; exact ⟨by decide, by simp⟩, fun r h => by
      rcases List.mem_singleton.1 h with rfl; exact ⟨by decide, by decide⟩, by simp, by simp [Buffer.wf]⟩,
    rfl, eq_next (by decide +kernel)⟩
/-- A run of two edges, an ISSUE and a RETIRE, from a state with a response already received. -/
theorem witness_ResponsesAreTheAnswersInOrder : ∃ s t : State, (∀ e ∈ s.inputs.take 2, e.rst = false) ∧
    Sys2Proof.core.run 2 s = .next t ∧ t.received = [.err (.illegalOp 12), .ok (.flag true)] := by
  refine ⟨{ State.reset with inputs := [offerEdge 0x5, accepting], received := [.err (.illegalOp 12)] },
    { State.reset with received := [.err (.illegalOp 12), .ok (.flag true)], edges := 2 }, by decide +kernel, ?_, rfl⟩
  rw [run_of_step (u := { State.reset with rsp := some (.ok (.flag true)), inputs := [accepting],
                                           received := [.err (.illegalOp 12)], edges := 1 }) (eq_next (by decide +kernel)),
    run_of_step (u := { State.reset with received := [.err (.illegalOp 12), .ok (.flag true)], edges := 2 })
      (eq_next (by decide +kernel))]
  rfl

end Sys2Proof.Tests
end

section
/-! The coordinate bits of an address (`10_state.md` R22). -/

namespace Sys2Proof.Machine

/-- Settles O16: `extractCoord_testBit` reads the sum bit by bit, and for `p` below 20 its guard holds; `extractCoord_lt`
bounds the sum. -/
theorem coordinateBitsAreAddressBits : Obligations.CoordinateBitsAreAddressBits := by
  intro a i p
  refine ⟨fun hp => ?_, Nat.le_of_lt_succ (extractCoord_lt a i)⟩
  rw [extractCoord_testBit, decide_eq_true hp, Bool.true_and]

end Sys2Proof.Machine
end

section
/-! The encoder: the answers of ENCODE (`40_encoder.md` R90) and the injectivity of `Enc` (R95). -/

namespace Sys2Proof.Machine

/-! ## Lanes and their integers -/

@[simp] theorem length_sints (vs : List Lane) : (sints vs).length = vs.length := List.length_map _

/-- A lane past the end reads as zero, before and after the conversion to an integer. -/
theorem getD_sints (vs : List Lane) (k : Nat) : (sints vs).getD k 0 = (vs.getD k 0).toInt :=
  List.getD_map vs 0 sint

theorem forall_mem_sints {vs : List Lane} {P : Int → Prop} : (∀ c ∈ sints vs, P c) ↔ ∀ v ∈ vs, P v.toInt :=
  List.forall_mem_map

/-- No lane is cut off while the count is at most 12 (`30_encoding.md` R63). -/
theorem lanesRead_of_le {n : Cnt} (h : n.toNat ≤ 12) : lanesRead n = n.toNat := Nat.min_eq_left h

theorem encode_wellFormed_iff {n : Cnt} {coords : List Lane} :
    (Instr.encode n coords).wellFormed = true ↔ coords.length = lanesRead n := beq_iff_eq

theorem length_sints_of_le {n : Cnt} {coords : List Lane} (hwf : (Instr.encode n coords).wellFormed = true)
    (hn : n.toNat ≤ 12) : (sints coords).length = n.toNat := by
  rw [length_sints, encode_wellFormed_iff.1 hwf, lanesRead_of_le hn]

/-! ## The address `Enc` builds -/

theorem hdr_of_isAddressOf {A : Addr} {cs : List Int} (h : IsAddressOf A cs) : hdr A = cs.length := by
  rw [← h.2, List.length_map, length_coordsOf]

/-- `Enc` of integers in the domain is the address of exactly these integers: none is changed by the passage through the
natural numbers. -/
theorem isAddressOf_enc {cs : List Int} (hd : cs.length ≤ 12) (hc : ∀ c ∈ cs, InDomain c) :
    IsAddressOf (enc (cs.map Int.toNat)) cs := by
  have hlen : (cs.map Int.toNat).length ≤ 12 := (List.length_map _).trans_le hd
  have hnat : ∀ c ∈ cs.map Int.toNat, c ≤ 1048575 :=
    List.forall_mem_map.2 fun c h => Int.toNat_le.2 (hc c h).2
  have hback : (cs.map Int.toNat).map Int.ofNat = cs := by
    rw [List.map_map]
    exact (List.map_congr_left fun c h => Int.toNat_of_nonneg (hc c h).1).trans (List.map_id' cs)
  exact ⟨enc_canonical hlen, by rw [coordsOf_enc hlen hnat, hback]⟩

/-! ## ENCODE -/

theorem decode_of_opcode_zero {w : CmdWord} (h : cmdOp w = 0) :
    decode w = .encode (cmdN w) (cmdLanes w (lanesRead (cmdN w))) := by
  rw [decode, h]; rfl

theorem exec_encode (n : Cnt) (coords : List Lane) (s : State) :
    exec (.encode n coords) s = complete (encodeChecked n.toNat (sints coords)) s := rfl

/-- Settles O10: `exec_encode` reduces the three answers to the three of `encodeChecked`, and `isAddressOf_enc` says what
the address of the last one is. -/
theorem encodeAnswers : Obligations.EncodeAnswers := by
  refine ⟨fun w => decode_of_opcode_zero, fun n coords s hwf =>
    ⟨fun hlong => ?tooLong, fun hn j hj hbad hgood => ?offender, fun hn hc => ?valid⟩⟩
  case tooLong => rw [exec_encode, encodeChecked_long _ hlong]; rfl
  case offender =>
    have herr : encodeChecked n.toNat (sints coords) = .error (.coordinateOutOfRange j (coords.getD j 0).toInt) := by
      simpa only [getD_sints] using encodeChecked_bad (cs := sints coords) j hn (by rwa [length_sints_of_le hwf hn])
        (by rwa [getD_sints]) (by simpa only [getD_sints] using hgood)
    rw [exec_encode, herr]; rfl
  case valid =>
    have hdom : ∀ c ∈ sints coords, InDomain c := forall_mem_sints.2 hc
    have haddr := isAddressOf_enc ((length_sints_of_le hwf hn).trans_le hn) hdom
    refine ⟨_, ?_, rfl, (hdr_of_isAddressOf haddr).trans (length_sints_of_le hwf hn), haddr⟩
    rw [exec_encode, encodeChecked_ok hn hdom]; rfl

/-! ## Injectivity -/

/-- Settles O42: the tuple an address holds is a left inverse of `Enc` on valid sequences (`coordsOf_enc`). -/
theorem encodingIsInjective : Obligations.EncodingIsInjective := by
  intro cs cs' hd hd' hc hc'
  refine ⟨fun h => ?_, congrArg enc⟩
  calc cs = coordsOf (enc cs) := (coordsOf_enc hd hc).symm
    _ = coordsOf (enc cs') := by rw [h]
    _ = cs' := coordsOf_enc hd' hc'

end Sys2Proof.Machine
end

section
/-! The decoder: what the loop of `Dec` gives and which bits it reads (`41_decoder.md` R101). -/

namespace Sys2Proof.Machine

/-! ## The bits the decoder reads -/

/-- Two addresses that agree on the header and the coordinate field of the first have one header. -/
theorem hdr_eq_of_agree {a a' : Addr} (h : ∀ k, k < 4 + 20 * hdr a → a'.getLsbD k = a.getLsbD k) : hdr a' = hdr a := by
  apply Nat.eq_of_testBit_eq
  intro j
  rw [hdr_testBit, hdr_testBit]
  by_cases hj : j < 4
  · rw [h j (by omega)]
  · rw [decide_eq_false hj, Bool.false_and, Bool.false_and]

/-- They hold the same coordinates: every offset of a coordinate bit lies in the field (`offset_lt`). -/
theorem extractCoord_eq_of_agree {a a' : Addr} (hd : hdr a ≤ 12)
    (h : ∀ k, k < 4 + 20 * hdr a → a'.getLsbD k = a.getLsbD k) {i : Nat} (hi : i < hdr a) :
    extractCoord a' i = extractCoord a i := by
  apply Nat.eq_of_testBit_eq
  intro p
  rw [extractCoord_testBit, extractCoord_testBit, hdr_eq_of_agree h]
  by_cases hp : p < 20
  · rw [h _ (offset_lt hd hp hi).1]
  · rw [decide_eq_false hp, Bool.false_and, Bool.false_and]

theorem coordsOf_eq_of_agree {a a' : Addr} (hd : hdr a ≤ 12)
    (h : ∀ k, k < 4 + 20 * hdr a → a'.getLsbD k = a.getLsbD k) : coordsOf a' = coordsOf a := by
  rw [coordsOf, coordsOf, hdr_eq_of_agree h]
  exact List.map_congr_left fun i hi => extractCoord_eq_of_agree hd h (List.mem_range.1 hi)

theorem dec_eq_of_agree {a a' : Addr} (hd : hdr a ≤ 12)
    (h : ∀ k, k < 4 + 20 * hdr a → a'.getLsbD k = a.getLsbD k) : dec a' = dec a := by
  rw [dec_eq_coordsOf, dec_eq_coordsOf, coordsOf_eq_of_agree hd h]

/-! ## The tuple the decoder gives -/

/-- Every coordinate of `Dec(a)` is in the domain, whatever the header. -/
theorem le_of_mem_dec {a : Addr} {c : Nat} (hc : c ∈ dec a) : c ≤ 1048575 := by
  rw [dec_eq_coordsOf, coordsOf] at hc
  obtain ⟨i, -, rfl⟩ := List.mem_map.1 hc
  exact Nat.le_of_lt_succ (extractCoord_lt a i)

theorem dec_zero : dec 0 = [] := List.eq_nil_of_length_eq_zero (length_dec 0)

/-- Settles O41: `dec_getD` ties the loop to the R22 formula, and `dec_eq_of_agree` says that bits past the coordinate
field are not read. -/
theorem decodeLoopReadsTheFormula : Obligations.DecodeLoopReadsTheFormula :=
  ⟨fun a => ⟨length_dec a, fun _ => dec_getD a, fun _ => le_of_mem_dec⟩, fun _ _ => dec_eq_of_agree, dec_zero⟩

end Sys2Proof.Machine
end

section
/-! The accessors: the answers of AT and ISZERO (`42_accessors.md` R111, R113). -/

namespace Sys2Proof.Machine

/-! ## AT -/

theorem decode_of_opcode_four {w : CmdWord} (h : cmdOp w = 4) : decode w = .atIndex (cmdA w) (cmdV w 0) := by
  rw [decode, h]; rfl

theorem exec_atIndex_malformed {a : Addr} (i : Lane) (s : State) (h : 12 < hdr a) :
    exec (.atIndex a i) s = .next (s.setRsp (.err (.malformedAddress .a (hdr a)))) := by
  rw [exec, execAt, decodeChecked_error .a h, except_error_bind, complete_error]

/-- Past the header check the answer of AT is that of the index check, with the tuple's length as the dimension count. -/
theorem exec_atIndex_of_header {a : Addr} (i : Lane) (s : State) (h : hdr a ≤ 12) :
    exec (.atIndex a i) s =
      complete (checkIndex i.toInt (hdr a) >>= fun _ => .ok (.coordinate ((dec a).getD i.toInt.toNat 0))) s := by
  rw [exec, execAt, decodeChecked_ok .a h, except_ok_bind, length_dec]; rfl

/-- A result's coordinate goes to `r[0]`; every other result field is zero (`30_encoding.md` R70). -/
theorem fields_coordinate (c : Nat) :
    (Response.ok (.coordinate c)).fields = ⟨0, false, 0, 0, 0,
      #v[BitVec.ofNat 64 c, 0, 0, 0, 0, 0, 0, 0, 0, 0, 0, 0], Vector.replicate 4 0⟩ := rfl

/-- Settles O15: the checks come in the order of `exec_atIndex_of_header`, and an index that passes both reads the
coordinate of the R22 formula (`dec_getD`). -/
theorem atAnswers : Obligations.AtAnswers := by
  refine ⟨fun w => decode_of_opcode_four, fun a i s =>
    ⟨exec_atIndex_malformed i s, fun hd hout => ?outside, fun hd h0 hlt => ⟨?inside, fields_coordinate _⟩⟩⟩
  case outside =>
    have hbad : ¬ (0 ≤ i.toInt ∧ i.toInt < hdr a) := by omega
    rw [exec_atIndex_of_header i s hd, checkIndex_error hbad]; rfl
  case inside =>
    have hi : i.toInt.toNat < hdr a := (Int.toNat_lt h0).2 hlt
    rw [exec_atIndex_of_header i s hd, checkIndex_ok ⟨h0, hlt⟩, dec_getD a hi]; rfl

/-! ## ISZERO -/

theorem decode_of_opcode_five {w : CmdWord} (h : cmdOp w = 5) : decode w = .isZero (cmdA w) := by
  rw [decode, h]; rfl

theorem exec_isZero_malformed {a : Addr} (s : State) (h : 12 < hdr a) :
    exec (.isZero a) s = .next (s.setRsp (.err (.malformedAddress .a (hdr a)))) := by
  rw [exec, execIsZero, decodeChecked_error .a h, except_error_bind, complete_error]

theorem exec_isZero_of_header {a : Addr} (s : State) (h : hdr a ≤ 12) :
    exec (.isZero a) s = .next (s.setRsp (.ok (.flag (allZero (dec a))))) := by
  rw [exec, execIsZero, decodeChecked_ok .a h, except_ok_bind, except_pure, complete_ok]

/-- The test on the decoded tuple is the test on the coordinates of the R22 formula. -/
theorem allZero_dec_iff (a : Addr) : allZero (dec a) = true ↔ ∀ i, i < hdr a → extractCoord a i = 0 := by
  rw [allZero_iff, length_dec]
  exact forall₂_congr fun i hi => by rw [dec_getD a hi]

/-- Settles O17: past the header check the flag is `allZero` of the decoded tuple, which `allZero_dec_iff` reads. -/
theorem isZeroAnswers : Obligations.IsZeroAnswers :=
  ⟨fun _ => decode_of_opcode_five, fun a s =>
    ⟨exec_isZero_malformed s, fun hd => ⟨allZero (dec a), exec_isZero_of_header s hd, rfl, allZero_dec_iff a⟩⟩⟩

end Sys2Proof.Machine
end

section
/-! The transformers: the answers of APPEND, SLICE and WITH (`43_transformers.md` R121 to R123). -/

namespace Sys2Proof.Machine

/-! ## The coordinates the transformers start from -/

/-- The decoded integers are those of the tuple the address holds, as the statements write it. -/
theorem ints_dec (a : Addr) : ints (dec a) = (coordsOf a).map Int.ofNat := by rw [ints, dec_eq_coordsOf]

theorem length_ints (cs : List Nat) : (ints cs).length = cs.length := List.length_map _

@[simp] theorem length_ints_dec (a : Addr) : (ints (dec a)).length = hdr a := by rw [length_ints, length_dec]

/-- A decoded coordinate passes the encoder's check again, whatever the operand. -/
theorem inDomain_of_mem_ints_dec {a : Addr} : ∀ c ∈ ints (dec a), InDomain c :=
  List.forall_mem_map.2 fun c hc => ⟨Int.natCast_nonneg c, Int.ofNat_le.2 (le_of_mem_dec hc)⟩

/-- A position past the end reads as zero, which is in the domain. -/
theorem inDomain_getD {cs : List Int} (h : ∀ c ∈ cs, InDomain c) (k : Nat) : InDomain (cs.getD k 0) := by
  rcases Nat.lt_or_ge k cs.length with hk | hk
  · rw [List.getD_eq_getElem cs 0 hk]; exact h _ (List.getElem_mem hk)
  · rw [List.getD_eq_default cs 0 hk]; decide

/-! ## How a transformer begins and ends (`43_transformers.md` R120) -/

theorem complete_decodeChecked_malformed {a : Addr} (f : List Nat → Except ErrorRecord Result) (s : State)
    (h : 12 < hdr a) :
    complete (decodeChecked a .a >>= f) s = .next (s.setRsp (.err (.malformedAddress .a (hdr a)))) := by
  rw [decodeChecked_error .a h, except_error_bind, complete_error]

theorem complete_decodeChecked_of_header {a : Addr} (f : List Nat → Except ErrorRecord Result) (s : State)
    (h : hdr a ≤ 12) : complete (decodeChecked a .a >>= f) s = complete (f (dec a)) s := by
  rw [decodeChecked_ok .a h, except_ok_bind]

/-- A sequence in the domain ends as its address in `ra`. -/
theorem complete_encodeChecked_address {L : Nat} {cs : List Int} (s : State) (hL : cs.length = L) (hd : L ≤ 12)
    (hc : ∀ c ∈ cs, InDomain c) :
    ∃ A, complete (encodeChecked L cs) s = .next { s with rsp := some (.ok (.address A)) } ∧
      (Response.ok (.address A)).fields.ra = A ∧ hdr A = L ∧ IsAddressOf A cs := by
  have haddr := isAddressOf_enc (hL.trans_le hd) hc
  refine ⟨_, ?_, rfl, (hdr_of_isAddressOf haddr).trans hL, haddr⟩
  rw [encodeChecked_ok hd hc]; rfl

/-! ## APPEND -/

theorem decode_of_opcode_six {w : CmdWord} (h : cmdOp w = 6) :
    decode w = .append (cmdN w) (cmdA w) (cmdLanes w (lanesRead (cmdN w))) := by
  rw [decode, h]; rfl

theorem append_wellFormed_iff {n : Cnt} {a : Addr} {extra : List Lane} :
    (Instr.append n a extra).wellFormed = true ↔ extra.length = lanesRead n := beq_iff_eq

theorem exec_append_malformed {a : Addr} (n : Cnt) (extra : List Lane) (s : State) (h : 12 < hdr a) :
    exec (.append n a extra) s = .next (s.setRsp (.err (.malformedAddress .a (hdr a)))) :=
  complete_decodeChecked_malformed _ s h

/-- Past the header check the answer of APPEND is the encoder's on the new sequence. -/
theorem exec_append_of_header {a : Addr} (n : Cnt) (extra : List Lane) (s : State) (h : hdr a ≤ 12) :
    exec (.append n a extra) s = complete (encodeChecked (hdr a + n.toNat) (ints (dec a) ++ sints extra)) s := by
  rw [exec, execAppend, complete_decodeChecked_of_header _ s h, length_dec]; rfl

theorem length_ints_dec_append {n : Cnt} {a : Addr} {extra : List Lane}
    (hwf : (Instr.append n a extra).wellFormed = true) (hn : n.toNat ≤ 12) :
    (ints (dec a) ++ sints extra).length = hdr a + n.toNat := by
  rw [List.length_append, length_ints_dec, length_sints, append_wellFormed_iff.1 hwf, lanesRead_of_le hn]

/-- The extra coordinate `j` has index `d + j` in the new sequence. -/
theorem getD_ints_dec_append (a : Addr) (extra : List Lane) (j : Nat) :
    (ints (dec a) ++ sints extra).getD (hdr a + j) 0 = (extra.getD j 0).toInt := by
  rw [List.getD_append_right _ _ _ _ (by simp), length_ints_dec, Nat.add_sub_cancel_left, getD_sints]

/-- Before the lowest bad extra stand the old coordinates and good extras only. -/
theorem inDomain_getD_ints_dec_append {a : Addr} {extra : List Lane} {j k : Nat}
    (hgood : ∀ i, i < j → InDomain (extra.getD i 0).toInt) (hk : k < hdr a + j) :
    InDomain ((ints (dec a) ++ sints extra).getD k 0) := by
  rcases Nat.lt_or_ge k (hdr a) with hold | hnew
  · rw [List.getD_append _ _ _ _ (by simpa using hold)]
    exact inDomain_getD inDomain_of_mem_ints_dec k
  · obtain ⟨i, rfl⟩ := Nat.exists_eq_add_of_le hnew
    rw [getD_ints_dec_append]
    exact hgood i (by omega)

/-- Settles O19: past the header check the encoder runs on the old coordinates followed by the extras
(`exec_append_of_header`), and no old coordinate can be its offender (`inDomain_getD_ints_dec_append`). -/
theorem appendAnswers : Obligations.AppendAnswers := by
  refine ⟨fun w => decode_of_opcode_six, fun n a extra s hwf =>
    ⟨exec_append_malformed n extra s, fun hd hlong => ?tooLong, fun hn j hj hbad hgood => ?offender,
      fun hn hc => ?valid⟩⟩
  case tooLong => rw [exec_append_of_header n extra s hd, encodeChecked_long _ hlong]; rfl
  case offender =>
    have hlen := length_ints_dec_append hwf (by omega)
    have herr := encodeChecked_bad (hdr a + j) hn (by omega : hdr a + j < (ints (dec a) ++ sints extra).length)
      (by rwa [getD_ints_dec_append]) fun k => inDomain_getD_ints_dec_append hgood
    rw [exec_append_of_header n extra s (by omega), herr, getD_ints_dec_append]; rfl
  case valid =>
    rw [exec_append_of_header n extra s (by omega), ← ints_dec]
    exact complete_encodeChecked_address s (length_ints_dec_append hwf (by omega)) hn
      (List.forall_mem_append.2 ⟨inDomain_of_mem_ints_dec, forall_mem_sints.2 hc⟩)

/-! ## SLICE -/

theorem decode_of_opcode_seven {w : CmdWord} (h : cmdOp w = 7) : decode w = .slice (cmdA w) (cmdV w 0) (cmdV w 1) := by
  rw [decode, h]; rfl

theorem exec_slice_malformed {a : Addr} (lo hi : Lane) (s : State) (h : 12 < hdr a) :
    exec (.slice a lo hi) s = .next (s.setRsp (.err (.malformedAddress .a (hdr a)))) :=
  complete_decodeChecked_malformed _ s h

/-- Past the header check SLICE checks its bounds and then encodes the sub-sequence. -/
theorem exec_slice_of_header {a : Addr} (lo hi : Lane) (s : State) (h : hdr a ≤ 12) :
    exec (.slice a lo hi) s = complete (checkRange lo.toInt hi.toInt (hdr a) >>= fun _ =>
      encodeChecked (subSeq (dec a) lo.toInt.toNat hi.toInt.toNat).length
        (ints (subSeq (dec a) lo.toInt.toNat hi.toInt.toNat))) s := by
  rw [exec, execSlice, complete_decodeChecked_of_header _ s h, length_dec]; rfl

theorem length_subSeq {cs : List Nat} {lo hi : Nat} (h : hi ≤ cs.length) : (subSeq cs lo hi).length = hi - lo := by
  rw [subSeq, List.length_drop, List.length_take_of_le h]

/-- The sub-sequence of the integers, by its first index and its length. -/
theorem ints_subSeq (cs : List Nat) (lo hi : Nat) : ints (subSeq cs lo hi) = ((ints cs).drop lo).take (hi - lo) := by
  rw [subSeq, List.drop_take, ints, List.map_take, List.map_drop, ints]

theorem inDomain_of_mem_ints_subSeq {a : Addr} {lo hi : Nat} : ∀ c ∈ ints (subSeq (dec a) lo hi), InDomain c := by
  intro c hc
  rw [ints_subSeq] at hc
  exact inDomain_of_mem_ints_dec c (List.mem_of_mem_drop (List.mem_of_mem_take hc))

/-- Settles O20: the bounds check comes before the encoder (`exec_slice_of_header`), and a sub-sequence of decoded
coordinates always passes the encoder (`inDomain_of_mem_ints_subSeq`). -/
theorem sliceAnswers : Obligations.SliceAnswers := by
  refine ⟨fun w => decode_of_opcode_seven, fun a lo hi s =>
    ⟨exec_slice_malformed lo hi s, fun hd hbad => ?bounds, fun hd h0 hle htop => ?valid⟩⟩
  case bounds => rw [exec_slice_of_header lo hi s hd, checkRange_error hbad]; rfl
  case valid =>
    have hlen : (subSeq (dec a) lo.toInt.toNat hi.toInt.toNat).length = hi.toInt.toNat - lo.toInt.toNat :=
      length_subSeq (by rw [length_dec]; omega)
    obtain ⟨A, hexec, hra, hhdr, haddr⟩ :=
      complete_encodeChecked_address s (length_ints (subSeq (dec a) lo.toInt.toNat hi.toInt.toNat)) (by omega)
        inDomain_of_mem_ints_subSeq
    refine ⟨A, ?_, hra, by omega, ?_⟩
    · rw [exec_slice_of_header lo hi s hd, checkRange_ok ⟨h0, hle, htop⟩, except_ok_bind, hexec]
    · rwa [← ints_dec, Int.toNat_sub'' (h0.trans hle) h0, ← ints_subSeq]

/-! ## WITH -/

theorem decode_of_opcode_eight {w : CmdWord} (h : cmdOp w = 8) :
    decode w = .withCoord (cmdA w) (cmdV w 0) (cmdV w 1) := by
  rw [decode, h]; rfl

theorem exec_withCoord_malformed {a : Addr} (i value : Lane) (s : State) (h : 12 < hdr a) :
    exec (.withCoord a i value) s = .next (s.setRsp (.err (.malformedAddress .a (hdr a)))) :=
  complete_decodeChecked_malformed _ s h

/-- Past the header check WITH checks its index and then encodes the changed sequence. -/
theorem exec_withCoord_of_header {a : Addr} (i value : Lane) (s : State) (h : hdr a ≤ 12) :
    exec (.withCoord a i value) s = complete (checkIndex i.toInt (hdr a) >>= fun _ =>
      encodeChecked (hdr a) ((ints (dec a)).set i.toInt.toNat value.toInt)) s := by
  rw [exec, execWith, complete_decodeChecked_of_header _ s h, length_dec]; rfl

theorem exec_withCoord_of_index {a : Addr} {i : Lane} (value : Lane) (s : State) (h : hdr a ≤ 12)
    (hi : 0 ≤ i.toInt ∧ i.toInt < hdr a) :
    exec (.withCoord a i value) s =
      complete (encodeChecked (hdr a) ((ints (dec a)).set i.toInt.toNat value.toInt)) s := by
  rw [exec_withCoord_of_header i value s h, checkIndex_ok hi, except_ok_bind]

/-- With one coordinate replaced by a value out of the domain, that coordinate is the lowest offender. -/
theorem encodeChecked_set_bad {cs : List Int} {i : Nat} {v : Int} (hd : cs.length ≤ 12) (hi : i < cs.length)
    (hc : ∀ c ∈ cs, InDomain c) (hv : ¬ InDomain v) :
    encodeChecked cs.length (cs.set i v) = .error (.coordinateOutOfRange i v) := by
  have hnew : (cs.set i v).getD i 0 = v := by simp [List.getD_eq_getElem?_getD, hi]
  have hold : ∀ k < i, (cs.set i v).getD k 0 = cs.getD k 0 := fun k hk => by
    rw [List.getD_eq_getElem?_getD, List.getElem?_set_ne hk.ne', ← List.getD_eq_getElem?_getD]
  rw [encodeChecked_bad i hd (by rwa [List.length_set]) (by rwa [hnew])
    fun k hk => by rw [hold k hk]; exact inDomain_getD hc k, hnew]

/-- Settles O21: the index check comes before the encoder (`exec_withCoord_of_header`), whose only possible offender is
the new value (`encodeChecked_set_bad`). -/
theorem withAnswers : Obligations.WithAnswers := by
  refine ⟨fun w => decode_of_opcode_eight, fun a i value s =>
    ⟨exec_withCoord_malformed i value s, fun hd hout => ?badIndex, fun hd h0 hlt hbad => ?badValue,
      fun hd h0 hlt hv => ?valid⟩⟩
  case badIndex =>
    have hbad : ¬ (0 ≤ i.toInt ∧ i.toInt < hdr a) := by omega
    rw [exec_withCoord_of_header i value s hd, checkIndex_error hbad]; rfl
  case badValue =>
    have herr := encodeChecked_set_bad (cs := ints (dec a)) (i := i.toInt.toNat) (by simpa using hd)
      (by rw [length_ints_dec]; omega) inDomain_of_mem_ints_dec hbad
    rw [length_ints_dec] at herr
    rw [exec_withCoord_of_index value s hd ⟨h0, hlt⟩, herr]; rfl
  case valid =>
    rw [exec_withCoord_of_index value s hd ⟨h0, hlt⟩, ← ints_dec]
    refine complete_encodeChecked_address s (by simp) hd fun c hc => ?_
    rcases List.mem_or_eq_of_mem_set hc with hmem | rfl
    · exact inDomain_of_mem_ints_dec c hmem
    · exact hv

end Sys2Proof.Machine
end

section
/-! The errors: which command raises which record on which operands, said once (`60_exceptions.md` R161 to R167). -/

namespace Sys2Proof.Machine

/-! ## The lowest offender (`40_encoder.md` R91) -/

/-- Position `k` of the sequence holds its first integer outside the coordinate domain. -/
def LowestOffender (cs : List Int) (k : Nat) : Prop :=
  k < cs.length ∧ ¬ InDomain (cs.getD k 0) ∧ ∀ j < k, InDomain (cs.getD j 0)

theorem exists_lowestOffender {cs : List Int} (h : ¬ ∀ c ∈ cs, InDomain c) : ∃ k, LowestOffender cs k := by
  have hex : ∃ k, ¬ InDomain (cs.getD k 0) := by
    push Not at h
    obtain ⟨c, hc, hbad⟩ := h
    obtain ⟨k, hk, rfl⟩ := List.getElem_of_mem hc
    exact ⟨k, by rwa [List.getD_eq_getElem cs 0 hk]⟩
  have hbad := Nat.find_spec hex
  refine ⟨Nat.find hex, ?_, hbad, fun j hj => not_not.1 (Nat.find_min hex hj)⟩
  by_contra hlen
  exact hbad (by rw [List.getD_eq_default cs 0 (by omega)]; decide)

theorem encodeChecked_of_lowestOffender {L k : Nat} {cs : List Int} (hL : L ≤ 12) (h : LowestOffender cs k) :
    encodeChecked L cs = .error (.coordinateOutOfRange k (cs.getD k 0)) := by
  obtain ⟨hlen, hbad, hgood⟩ := h
  exact encodeChecked_bad k hL hlen hbad hgood

/-- The lowest offender among lanes, as the statements write it. -/
theorem lowestOffender_sints_iff {vs : List Lane} {k : Nat} :
    LowestOffender (sints vs) k ↔
      k < vs.length ∧ ¬ InDomain (vs.getD k 0).toInt ∧ ∀ j < k, InDomain (vs.getD j 0).toInt := by
  simp only [LowestOffender, length_sints, getD_sints]

/-- After the old coordinates of an address, the lowest bad extra is the lowest offender of the whole. -/
theorem LowestOffender.append_to_dec {extra : List Lane} {j : Nat} (a : Addr) (h : LowestOffender (sints extra) j) :
    LowestOffender (ints (dec a) ++ sints extra) (hdr a + j) := by
  obtain ⟨hlen, hbad, hgood⟩ := lowestOffender_sints_iff.1 h
  refine ⟨?_, by rwa [getD_ints_dec_append], fun k hk => inDomain_getD_ints_dec_append hgood hk⟩
  rw [List.length_append, length_ints_dec, length_sints]
  omega

/-! ## Who raises what -/

/-- The operand a decoding command checks first (`41_decoder.md` R100). -/
def decodedOperand : Instr → Option Addr
  | .decode a => some a
  | .decodeBuf _ a => some a
  | .atIndex a _ => some a
  | .isZero a => some a
  | .append _ a _ => some a
  | .slice a _ _ => some a
  | .withCoord a _ _ => some a
  | .contains a _ => some a
  | .inRange _ a _ => some a
  | .encode _ _ => none
  | .dims _ => none
  | .equal _ _ => none
  | .illegal12 => none
  | .illegal13 => none
  | .illegal14 => none
  | .illegal15 => none

/-- The causes of the errors, one constructor per command and check (`60_exceptions.md` R161 to R167);
`exec_raises_iff` ties it to `exec`. -/
inductive Raises : Instr → ErrorRecord → Prop
  | encodeTooLong {n : Cnt} {coords : List Lane} : 12 < n.toNat → Raises (.encode n coords) (.dimensionLimitExceeded n.toNat)
  | encodeOffender {n : Cnt} {coords : List Lane} {k : Nat} : n.toNat ≤ 12 → LowestOffender (sints coords) k →
      Raises (.encode n coords) (.coordinateOutOfRange k (coords.getD k 0).toInt)
  | appendTooLong {n : Cnt} {a : Addr} {extra : List Lane} : hdr a ≤ 12 → 12 < hdr a + n.toNat →
      Raises (.append n a extra) (.dimensionLimitExceeded (hdr a + n.toNat))
  | appendOffender {n : Cnt} {a : Addr} {extra : List Lane} {j : Nat} : hdr a + n.toNat ≤ 12 →
      LowestOffender (sints extra) j →
      Raises (.append n a extra) (.coordinateOutOfRange (hdr a + j) (extra.getD j 0).toInt)
  | withIndex {a : Addr} {idx v : Lane} : hdr a ≤ 12 → idx.toInt < 0 ∨ (hdr a : Int) ≤ idx.toInt →
      Raises (.withCoord a idx v) (.indexOutOfRange idx.toInt (hdr a))
  | withOffender {a : Addr} {idx v : Lane} : hdr a ≤ 12 → 0 ≤ idx.toInt → idx.toInt < hdr a → ¬ InDomain v.toInt →
      Raises (.withCoord a idx v) (.coordinateOutOfRange idx.toInt.toNat v.toInt)
  | atIndex {a : Addr} {idx : Lane} : hdr a ≤ 12 → idx.toInt < 0 ∨ (hdr a : Int) ≤ idx.toInt →
      Raises (.atIndex a idx) (.indexOutOfRange idx.toInt (hdr a))
  | sliceRange {a : Addr} {lo hi : Lane} : hdr a ≤ 12 →
      ¬ (0 ≤ lo.toInt ∧ lo.toInt ≤ hi.toInt ∧ hi.toInt ≤ hdr a) →
      Raises (.slice a lo hi) (.rangeInvalid lo.toInt hi.toInt (hdr a))
  | bufferTooSmall {n : Cnt} {a : Addr} : hdr a ≤ 12 → n.toNat < hdr a →
      Raises (.decodeBuf n a) (.bufferTooSmall (hdr a) n.toNat)
  | malformedA {i : Instr} {a : Addr} : decodedOperand i = some a → 12 < hdr a →
      Raises i (.malformedAddress .a (hdr a))
  | malformedB {a b : Addr} : hdr a ≤ 12 → 12 < hdr b →
      Raises (.contains a b) (.malformedAddress .b (hdr b))
  | illegal {i : Instr} : 12 ≤ i.opcode.toNat → Raises i (.illegalOp i.opcode.toNat)

/-! ## What the commands answer at their header check and past it -/

theorem exec_decodeBuf_malformed {a : Addr} (n : Cnt) (s : State) (h : 12 < hdr a) :
    exec (.decodeBuf n a) s = .next (s.setRsp (.err (.malformedAddress .a (hdr a)))) := by
  rw [exec, execDecodeBuf, checkAddr_error .a h, except_error_bind, complete_error]

/-- Every decoding command begins with the check of its operand `a`. -/
theorem exec_malformed {i : Instr} {a : Addr} (s : State) (hi : decodedOperand i = some a) (h : 12 < hdr a) :
    exec i s = .next (s.setRsp (.err (.malformedAddress .a (hdr a)))) := by
  cases i <;> cases hi
  case decodeBuf n => exact exec_decodeBuf_malformed n s h
  all_goals exact complete_decodeChecked_malformed _ s h

theorem exec_decode_of_header {a : Addr} (s : State) (h : hdr a ≤ 12) :
    exec (.decode a) s = .next (s.setRsp (.ok (.tuple (dec a)))) :=
  complete_decodeChecked_of_header _ s h

theorem exec_decodeBuf_of_header {a : Addr} (n : Cnt) (s : State) (h : hdr a ≤ 12) :
    exec (.decodeBuf n a) s = complete (checkCapacity (hdr a) n.toNat >>= fun _ => .ok (.bufWrites (dec a))) s := by
  rw [exec, execDecodeBuf, checkAddr_ok .a h, except_ok_bind]; rfl

theorem checkCapacity_ok {needed given : Nat} (h : needed ≤ given) : checkCapacity needed given = .ok () :=
  if_neg (Nat.not_lt.2 h)

theorem checkCapacity_error {needed given : Nat} (h : given < needed) :
    checkCapacity needed given = .error (.bufferTooSmall needed given) := if_pos h

theorem exec_contains_of_header {a : Addr} (b : Addr) (s : State) (h : hdr a ≤ 12) :
    exec (.contains a b) s =
      complete (decodeChecked b .b >>= fun sb => .ok (.flag (prefixOf (dec a) sb))) s :=
  complete_decodeChecked_of_header _ s h

theorem exec_inRange_of_header {a : Addr} (n : Cnt) (pairs : List (Lane × Lane)) (s : State) (h : hdr a ≤ 12) :
    exec (.inRange n a pairs) s = .next (s.setRsp (.ok (.flag (pairsHold n.toNat pairs (dec a))))) :=
  complete_decodeChecked_of_header _ s h

/-! ## A cause is followed by its error -/

theorem exec_illegal {i : Instr} (s : State) (h : 12 ≤ i.opcode.toNat) :
    exec i s = .next (s.setRsp (.err (.illegalOp i.opcode.toNat))) := by
  cases i
  case illegal12 | illegal13 | illegal14 | illegal15 => rfl
  all_goals exact absurd h (by simp [Instr.opcode])

theorem exec_of_raises {i : Instr} {e : ErrorRecord} (s : State) (h : Raises i e) :
    exec i s = .next (s.setRsp (.err e)) := by
  obtain ⟨-, hat⟩ := atAnswers
  obtain ⟨-, hslice⟩ := sliceAnswers
  obtain ⟨-, hwith⟩ := withAnswers
  cases h with
  | encodeTooLong hn => rw [exec_encode, encodeChecked_long _ hn, complete_error]
  | encodeOffender hn hk =>
    rw [exec_encode, encodeChecked_of_lowestOffender hn hk, getD_sints, complete_error]
  | appendTooLong hd hn => rw [exec_append_of_header _ _ s hd, encodeChecked_long _ hn, complete_error]
  | @appendOffender n a _ _ hn hj =>
    rw [exec_append_of_header _ _ s (by omega), encodeChecked_of_lowestOffender hn (hj.append_to_dec a),
      getD_ints_dec_append, complete_error]
  | @withIndex a idx v hd hout =>
    obtain ⟨-, hbadIndex, -⟩ := hwith a idx v s
    exact hbadIndex hd hout
  | @withOffender a idx v hd h0 hlt hv =>
    obtain ⟨-, -, hbadValue, -⟩ := hwith a idx v s
    exact hbadValue hd h0 hlt hv
  | @atIndex a idx hd hout =>
    obtain ⟨-, hbadIndex, -⟩ := hat a idx s
    exact hbadIndex hd hout
  | @sliceRange a lo hi hd hbad =>
    obtain ⟨-, hbounds, -⟩ := hslice a lo hi s
    exact hbounds hd hbad
  | bufferTooSmall hd hn =>
    rw [exec_decodeBuf_of_header _ s hd, checkCapacity_error hn, except_error_bind, complete_error]
  | malformedA hi hbad => exact exec_malformed s hi hbad
  | malformedB hd hbad =>
    rw [exec_contains_of_header _ s hd, decodeChecked_error .b hbad, except_error_bind, complete_error]
  | illegal hop => exact exec_illegal s hop

/-! ## Without a cause there is a result -/

/-- The command answers a result, from every state. -/
def Succeeds (i : Instr) : Prop := ∀ s, ∃ r, exec i s = .next (s.setRsp (.ok r))

theorem encode_succeeds {n : Cnt} {coords : List Lane} (hn : n.toNat ≤ 12) (hc : ∀ c ∈ sints coords, InDomain c) :
    Succeeds (.encode n coords) := fun s =>
  ⟨_, by rw [exec_encode, encodeChecked_ok hn hc, complete_ok]⟩

theorem append_succeeds {n : Cnt} {a : Addr} {extra : List Lane} (hn : hdr a + n.toNat ≤ 12)
    (hc : ∀ c ∈ sints extra, InDomain c) : Succeeds (.append n a extra) := fun s =>
  ⟨_, by rw [exec_append_of_header n extra s (by omega),
    encodeChecked_ok hn (List.forall_mem_append.2 ⟨inDomain_of_mem_ints_dec, hc⟩), complete_ok]⟩

theorem slice_succeeds {a : Addr} {lo hi : Lane} (hd : hdr a ≤ 12)
    (h : 0 ≤ lo.toInt ∧ lo.toInt ≤ hi.toInt ∧ hi.toInt ≤ hdr a) : Succeeds (.slice a lo hi) := fun s => by
  obtain ⟨h0, hle, htop⟩ := h
  obtain ⟨-, -, hvalid⟩ := sliceAnswers.2 a lo hi s
  obtain ⟨A, hexec, -⟩ := hvalid hd h0 hle htop
  exact ⟨_, hexec⟩

theorem atIndex_succeeds {a : Addr} {idx : Lane} (hd : hdr a ≤ 12) (h : 0 ≤ idx.toInt ∧ idx.toInt < hdr a) :
    Succeeds (.atIndex a idx) := fun s =>
  ⟨_, by rw [exec_atIndex_of_header idx s hd, checkIndex_ok h, except_ok_bind, complete_ok]⟩

theorem withCoord_succeeds {a : Addr} {idx v : Lane} (hd : hdr a ≤ 12) (h : 0 ≤ idx.toInt ∧ idx.toInt < hdr a)
    (hv : InDomain v.toInt) : Succeeds (.withCoord a idx v) := fun s => by
  obtain ⟨-, -, -, hvalid⟩ := withAnswers.2 a idx v s
  obtain ⟨A, hexec, -⟩ := hvalid hd h.1 h.2 hv
  exact ⟨_, hexec⟩

theorem decodeBuf_succeeds {n : Cnt} {a : Addr} (hd : hdr a ≤ 12) (hn : hdr a ≤ n.toNat) :
    Succeeds (.decodeBuf n a) := fun s =>
  ⟨_, by rw [exec_decodeBuf_of_header n s hd, checkCapacity_ok hn, except_ok_bind, complete_ok]⟩

theorem contains_succeeds {a b : Addr} (ha : hdr a ≤ 12) (hb : hdr b ≤ 12) : Succeeds (.contains a b) := fun s =>
  ⟨_, by rw [exec_contains_of_header b s ha, decodeChecked_ok .b hb, except_ok_bind, complete_ok]⟩

/-- Past the header check of operand `a`, command by command. -/
theorem succeeds_or_raises_of_header (i : Instr) (hdec : ∀ a, decodedOperand i = some a → hdr a ≤ 12) :
    Succeeds i ∨ ∃ e, Raises i e := by
  cases i with
  | encode n coords =>
    rcases Nat.lt_or_ge 12 n.toNat with hn | hn
    · exact .inr ⟨_, .encodeTooLong hn⟩
    by_cases hc : ∀ c ∈ sints coords, InDomain c
    · exact .inl (encode_succeeds hn hc)
    · obtain ⟨k, hk⟩ := exists_lowestOffender hc
      exact .inr ⟨_, .encodeOffender hn hk⟩
  | append n a extra =>
    rcases Nat.lt_or_ge 12 (hdr a + n.toNat) with hn | hn
    · exact .inr ⟨_, .appendTooLong (hdec a rfl) hn⟩
    by_cases hc : ∀ c ∈ sints extra, InDomain c
    · exact .inl (append_succeeds hn hc)
    · obtain ⟨j, hj⟩ := exists_lowestOffender hc
      exact .inr ⟨_, .appendOffender hn hj⟩
  | slice a lo hi =>
    by_cases h : 0 ≤ lo.toInt ∧ lo.toInt ≤ hi.toInt ∧ hi.toInt ≤ hdr a
    · exact .inl (slice_succeeds (hdec a rfl) h)
    · exact .inr ⟨_, .sliceRange (hdec a rfl) h⟩
  | atIndex a idx =>
    by_cases h : 0 ≤ idx.toInt ∧ idx.toInt < hdr a
    · exact .inl (atIndex_succeeds (hdec a rfl) h)
    · exact .inr ⟨_, .atIndex (hdec a rfl) (by omega)⟩
  | withCoord a idx v =>
    by_cases h : 0 ≤ idx.toInt ∧ idx.toInt < hdr a
    · by_cases hv : InDomain v.toInt
      · exact .inl (withCoord_succeeds (hdec a rfl) h hv)
      · exact .inr ⟨_, .withOffender (hdec a rfl) h.1 h.2 hv⟩
    · exact .inr ⟨_, .withIndex (hdec a rfl) (by omega)⟩
  | decodeBuf n a =>
    rcases Nat.lt_or_ge n.toNat (hdr a) with hn | hn
    · exact .inr ⟨_, .bufferTooSmall (hdec a rfl) hn⟩
    · exact .inl (decodeBuf_succeeds (hdec a rfl) hn)
  | contains a b =>
    rcases Nat.lt_or_ge 12 (hdr b) with hb | hb
    · exact .inr ⟨_, .malformedB (hdec a rfl) hb⟩
    · exact .inl (contains_succeeds (hdec a rfl) hb)
  | decode a => exact .inl fun s => ⟨_, exec_decode_of_header s (hdec a rfl)⟩
  | isZero a => exact .inl fun s => ⟨_, exec_isZero_of_header s (hdec a rfl)⟩
  | inRange n a pairs => exact .inl fun s => ⟨_, exec_inRange_of_header n pairs s (hdec a rfl)⟩
  | dims a | equal a b => exact .inl fun s => ⟨_, rfl⟩
  | illegal12 | illegal13 | illegal14 | illegal15 => exact .inr ⟨_, .illegal (by decide)⟩

theorem succeeds_or_raises (i : Instr) : Succeeds i ∨ ∃ e, Raises i e := by
  by_cases hdec : ∀ a, decodedOperand i = some a → hdr a ≤ 12
  · exact succeeds_or_raises_of_header i hdec
  · push Not at hdec
    obtain ⟨a, hi, hbad⟩ := hdec
    exact .inr ⟨_, .malformedA hi hbad⟩

/-! ## The causes are exactly the errors -/

theorem next_setRsp_inj {s : State} {r r' : Response}
    (h : (.next (s.setRsp r) : Host.Outcome State Fault Refusal) = .next (s.setRsp r')) : r = r' := by
  injection h with h
  exact Option.some.inj (congrArg State.rsp h)

/-- A command is answered with an error record exactly if it has the record's cause: a cause excludes a result, and the
answer is one. -/
theorem exec_raises_iff {i : Instr} {e : ErrorRecord} {s : State} :
    exec i s = .next { s with rsp := some (.err e) } ↔ Raises i e := by
  refine ⟨fun h : exec i s = .next (s.setRsp (.err e)) => ?_, exec_of_raises s⟩
  rcases succeeds_or_raises i with hok | ⟨e', he'⟩
  · obtain ⟨r, hr⟩ := hok s
    exact absurd (next_setRsp_inj (hr.symm.trans h)) (by simp)
  · obtain rfl : e' = e := Response.err.inj (next_setRsp_inj ((exec_of_raises s he').symm.trans h))
    exact he'

end Sys2Proof.Machine
end

section
/-! The errors, record by record (`60_exceptions.md` R161 to R165): the causes in `Raises` that have the record. -/

namespace Sys2Proof.Machine

/-- Settles O28: two of the causes in `Raises` have this record. -/
theorem dimensionLimitCause : Obligations.DimensionLimitCause := by
  intro i s requested _
  refine ⟨exec_raises_iff.trans ⟨fun h => ?cause, ?raise⟩, rfl, rfl⟩
  case cause =>
    cases h with
    | encodeTooLong hn => exact .inl ⟨_, _, rfl, hn, rfl⟩
    | appendTooLong hd hn => exact .inr ⟨_, _, _, rfl, hd, hn, rfl⟩
  case raise =>
    rintro (⟨n, coords, rfl, hn, rfl⟩ | ⟨n, a, extra, rfl, hd, hn, rfl⟩)
    · exact .encodeTooLong hn
    · exact .appendTooLong hd hn

/-- Settles O29: three of the causes in `Raises` have this record; a well-formed command carries exactly `n` lanes where
`n` is at most 12, so the lowest offender among the lanes is the one below `n`. -/
theorem coordinateOutOfRangeCause : Obligations.CoordinateOutOfRangeCause := by
  intro i s index value hwf
  refine ⟨exec_raises_iff.trans ⟨fun h => ?cause, ?raise⟩, rfl, rfl⟩
  case cause =>
    cases h with
    | encodeOffender hn hk =>
      obtain ⟨hlen, hbad, hgood⟩ := lowestOffender_sints_iff.1 hk
      rw [encode_wellFormed_iff.1 hwf, lanesRead_of_le hn] at hlen
      exact .inl ⟨_, _, rfl, hn, hlen, rfl, hbad, hgood⟩
    | appendOffender hn hj =>
      obtain ⟨hlen, hbad, hgood⟩ := lowestOffender_sints_iff.1 hj
      rw [append_wellFormed_iff.1 hwf, lanesRead_of_le (by omega)] at hlen
      exact .inr (.inl ⟨_, _, _, _, rfl, hn, hlen, rfl, rfl, hbad, hgood⟩)
    | withOffender hd h0 hlt hv => exact .inr (.inr ⟨_, _, _, rfl, hd, h0, hlt, rfl, rfl, hv⟩)
  case raise =>
    rintro (⟨n, coords, rfl, hn, hlen, rfl, hbad, hgood⟩ | ⟨n, a, extra, j, rfl, hn, hlen, rfl, rfl, hbad, hgood⟩ |
      ⟨a, idx, v, rfl, hd, h0, hlt, rfl, rfl, hv⟩)
    · rw [← lanesRead_of_le hn, ← encode_wellFormed_iff.1 hwf] at hlen
      exact .encodeOffender hn (lowestOffender_sints_iff.2 ⟨hlen, hbad, hgood⟩)
    · rw [← lanesRead_of_le (by omega), ← append_wellFormed_iff.1 hwf] at hlen
      exact .appendOffender hn (lowestOffender_sints_iff.2 ⟨hlen, hbad, hgood⟩)
    · exact .withOffender hd h0 hlt hv

/-- Settles O30: two of the causes in `Raises` have this record. -/
theorem indexOutOfRangeCause : Obligations.IndexOutOfRangeCause := by
  intro i s index dims
  refine ⟨exec_raises_iff.trans ⟨fun h => ?cause, ?raise⟩, rfl, rfl⟩
  case cause =>
    cases h with
    | atIndex hd hout => exact ⟨_, _, .inl rfl, hd, hout, rfl, rfl⟩
    | withIndex hd hout => exact ⟨_, _, .inr ⟨_, rfl⟩, hd, hout, rfl, rfl⟩
  case raise =>
    rintro ⟨a, idx, rfl | ⟨v, rfl⟩, hd, hout, rfl, rfl⟩
    · exact .atIndex hd hout
    · exact .withIndex hd hout

/-- Settles O31: one of the causes in `Raises` has this record. -/
theorem bufferTooSmallCause : Obligations.BufferTooSmallCause := by
  intro i s needed given
  refine ⟨exec_raises_iff.trans ⟨fun h => ?cause, ?raise⟩, rfl, rfl, rfl, rfl⟩
  case cause =>
    cases h with
    | bufferTooSmall hd hn => exact ⟨_, _, rfl, hd, hn, rfl, rfl⟩
  case raise =>
    rintro ⟨n, a, rfl, hd, hn, rfl, rfl⟩
    exact .bufferTooSmall hd hn

/-- Settles O32: one of the causes in `Raises` has this record. -/
theorem rangeInvalidCause : Obligations.RangeInvalidCause := by
  intro i s lo hi dims
  refine ⟨exec_raises_iff.trans ⟨fun h => ?cause, ?raise⟩, rfl, rfl⟩
  case cause =>
    cases h with
    | sliceRange hd hbad => exact ⟨_, _, _, rfl, hd, hbad, rfl, rfl, rfl⟩
  case raise =>
    rintro ⟨a, l, h, rfl, hd, hbad, rfl, rfl, rfl⟩
    exact .sliceRange hd hbad

end Sys2Proof.Machine
end

section
/-! The command word: every word decodes to the command of its opcode, and the decoder gives back what the encoder packed
(`30_encoding.md` R62 to R64, R69). -/

namespace Sys2Proof.Machine

/-! ## The command an opcode selects -/

theorem decode_of_opcode_one {w : CmdWord} (h : cmdOp w = 1) : decode w = .decode (cmdA w) := by
  rw [decode, h]; rfl

theorem decode_of_opcode_two {w : CmdWord} (h : cmdOp w = 2) : decode w = .decodeBuf (cmdN w) (cmdA w) := by
  rw [decode, h]; rfl

theorem decode_of_opcode_three {w : CmdWord} (h : cmdOp w = 3) : decode w = .dims (cmdA w) := by
  rw [decode, h]; rfl

theorem decode_of_opcode_nine {w : CmdWord} (h : cmdOp w = 9) : decode w = .equal (cmdA w) (cmdB w) := by
  rw [decode, h]; rfl

theorem decode_of_opcode_ten {w : CmdWord} (h : cmdOp w = 10) : decode w = .contains (cmdA w) (cmdB w) := by
  rw [decode, h]; rfl

theorem decode_of_opcode_eleven {w : CmdWord} (h : cmdOp w = 11) :
    decode w = .inRange (cmdN w) (cmdA w) (cmdPairs w (lanesRead (cmdN w))) := by
  rw [decode, h]; rfl

/-! ## The lists of lanes a packed word carries -/

theorem lanesRead_le (n : Cnt) : lanesRead n ≤ 12 := Nat.min_le_right _ _

theorem cmdLanes_packCmd_of_wellFormed (op : BitVec 4) {n : Cnt} (a b : Addr) {v : List Lane}
    (h : v.length = lanesRead n) : cmdLanes (packCmd op n a b v) (lanesRead n) = v := by
  have h12 := lanesRead_le n
  rw [← h]
  exact cmdLanes_packCmd op n a b v (by omega)

theorem cmdPairs_packCmd (op : BitVec 4) (n : Cnt) (a b : Addr) {ps : List (Lane × Lane)} (h : ps.length ≤ 12) :
    cmdPairs (packCmd op n a b (pairLanes ps)) ps.length = ps := by
  apply List.ext_getElem (by simp [cmdPairs])
  intro k h1 hk
  obtain ⟨hmin, hmax⟩ := getD_pairLanes ps k
  rw [List.getD_eq_getElem ps _ hk] at hmin hmax
  simp only [cmdPairs, List.getElem_map, List.getElem_range]
  rw [cmdV_packCmd _ _ _ _ _ (by omega), cmdV_packCmd _ _ _ _ _ (by omega), hmin, hmax]

theorem inRange_wellFormed_iff {n : Cnt} {a : Addr} {pairs : List (Lane × Lane)} :
    (Instr.inRange n a pairs).wellFormed = true ↔ pairs.length = lanesRead n := beq_iff_eq

/-- Settles O2: the opcode selects the command (`decode_of_opcode_zero` and the others), and each field of the packed word
reads back what was placed there. -/
theorem decodeOfEncodeIsTheCommand : Obligations.DecodeOfEncodeIsTheCommand := by
  intro i hwf
  cases i with
  | encode n coords =>
    rw [decode_of_opcode_zero (Laws.OpcodeBits.encode n coords), encode, cmdN_packCmd,
      cmdLanes_packCmd_of_wellFormed _ _ _ (encode_wellFormed_iff.1 hwf)]
  | decode a => rw [decode_of_opcode_one (Laws.OpcodeBits.decode a), encode, cmdA_packCmd]
  | decodeBuf n a => rw [decode_of_opcode_two (Laws.OpcodeBits.decodeBuf n a), encode, cmdN_packCmd, cmdA_packCmd]
  | dims a => rw [decode_of_opcode_three (Laws.OpcodeBits.dims a), encode, cmdA_packCmd]
  | atIndex a idx =>
    rw [decode_of_opcode_four (Laws.OpcodeBits.atIndex a idx), encode, cmdA_packCmd,
      cmdV_packCmd _ _ _ _ _ (by decide)]; rfl
  | isZero a => rw [decode_of_opcode_five (Laws.OpcodeBits.isZero a), encode, cmdA_packCmd]
  | append n a extra =>
    rw [decode_of_opcode_six (Laws.OpcodeBits.append n a extra), encode, cmdN_packCmd, cmdA_packCmd,
      cmdLanes_packCmd_of_wellFormed _ _ _ (append_wellFormed_iff.1 hwf)]
  | slice a lo hi =>
    rw [decode_of_opcode_seven (Laws.OpcodeBits.slice a lo hi), encode, cmdA_packCmd,
      cmdV_packCmd _ _ _ _ _ (by decide), cmdV_packCmd _ _ _ _ _ (by decide)]; rfl
  | withCoord a idx value =>
    rw [decode_of_opcode_eight (Laws.OpcodeBits.withCoord a idx value), encode, cmdA_packCmd,
      cmdV_packCmd _ _ _ _ _ (by decide), cmdV_packCmd _ _ _ _ _ (by decide)]; rfl
  | equal a b => rw [decode_of_opcode_nine (Laws.OpcodeBits.equal a b), encode, cmdA_packCmd, cmdB_packCmd]
  | contains a b => rw [decode_of_opcode_ten (Laws.OpcodeBits.contains a b), encode, cmdA_packCmd, cmdB_packCmd]
  | inRange n a pairs =>
    have hlen := inRange_wellFormed_iff.1 hwf
    have h12 := lanesRead_le n
    rw [decode_of_opcode_eleven (Laws.OpcodeBits.inRange n a pairs), encode, cmdN_packCmd, cmdA_packCmd, ← hlen,
      cmdPairs_packCmd _ _ _ _ (by omega)]
  | illegal12 => rw [decode, Laws.OpcodeBits.illegal12]; rfl
  | illegal13 => rw [decode, Laws.OpcodeBits.illegal13]; rfl
  | illegal14 => rw [decode, Laws.OpcodeBits.illegal14]; rfl
  | illegal15 => rw [decode, Laws.OpcodeBits.illegal15]; rfl

/-! ## Every word is a command -/

theorem decode_wellFormed (w : CmdWord) : (decode w).wellFormed = true := by
  unfold decode
  split <;> simp [Instr.wellFormed, cmdLanes, cmdPairs]

/-- The sixteen branches of the decoder are told apart by the opcode; the last one takes what is left of the four bits. -/
theorem opcode_decode (w : CmdWord) : (decode w).opcode = cmdOp w := by
  have hlt := (cmdOp w).isLt
  unfold decode
  split
  case h_16 =>
    simp only [imp_false] at *
    exact BitVec.eq_of_toNat_eq (show 15 = (cmdOp w).toNat by omega)
  all_goals exact BitVec.eq_of_toNat_eq (Eq.symm ‹_›)

/-- Settles O3: `decode_wellFormed` counts the lanes branch by branch, `opcode_decode` compares the opcodes. -/
theorem everyWordDecodesToAWellFormedCommand : Obligations.EveryWordDecodesToAWellFormedCommand :=
  fun w => ⟨decode_wellFormed w, opcode_decode w⟩

end Sys2Proof.Machine
end

section
/-! The bits a command does not read (`30_encoding.md` R69), and the seven words of the spec's vectors. -/

namespace Sys2Proof.Machine

/-! ## The illegal opcodes -/

/-- Settles O27: a word whose opcode is 12 or more decodes to a command of that opcode (`opcode_decode`), and such a command
answers with it (`exec_illegal`). -/
theorem illegalOpcodesAnswerIllegalOp : Obligations.IllegalOpcodesAnswerIllegalOp := by
  refine ⟨fun s => ⟨rfl, rfl, rfl, rfl⟩, fun w s h => ?_⟩
  rw [← opcode_decode w] at h ⊢
  exact exec_illegal s h

/-! ## What agreeing on the bits read fixes -/

/-- `w'` agrees with `w` on every bit the command `w` reads. -/
def AgreesOnRead (w w' : CmdWord) : Prop := ∀ k, k < 2060 → readsBit w k = true → w'.getLsbD k = w.getLsbD k

/-- Lane `j` is one the command `w` reads (`30_encoding.md` R63); `readsBit_of_readsLane` ties it to `readsBit`. -/
def ReadsLane (w : CmdWord) (j : Nat) : Prop :=
  (cmdOp w = 0 ∨ cmdOp w = 6) ∧ j < lanesRead (cmdN w) ∨ cmdOp w = 4 ∧ j < 1 ∨ (cmdOp w = 7 ∨ cmdOp w = 8) ∧ j < 2 ∨
    cmdOp w = 11 ∧ j < 2 * min (cmdN w).toNat (hdr (cmdA w))

theorem readsBit_of_readsLane {w : CmdWord} {j k : Nat} (h : ReadsLane w j) (hlo : 524 + 64 * j ≤ k)
    (hhi : k < 524 + 64 * j + 64) : readsBit w k = true := by
  unfold readsBit
  simp only [Bool.or_eq_true, decide_eq_true_eq]
  refine .inr ⟨by omega, ?_⟩
  simp only [ReadsLane, lanesRead, Config.maxDims] at h
  rcases h with ⟨hop | hop, hj⟩ | ⟨hop, hj⟩ | ⟨hop | hop, hj⟩ | ⟨hop, hj⟩ <;> simp [hop] <;> omega

section
variable {w w' : CmdWord} (hagree : AgreesOnRead w w')
include hagree

/-- A field all of whose bits are read is the same in both words. -/
theorem extractLsb'_eq_of_agrees {lo n : Nat} (hfit : lo + n ≤ 2060)
    (hread : ∀ k, lo ≤ k → k < lo + n → readsBit w k = true) : w'.extractLsb' lo n = w.extractLsb' lo n := by
  apply BitVec.eq_of_getLsbD_eq
  intro k hk
  rw [BitVec.getLsbD_extractLsb', BitVec.getLsbD_extractLsb', hagree _ (by omega) (hread _ (by omega) (by omega))]

theorem cmdOp_eq_of_agrees : cmdOp w' = cmdOp w :=
  extractLsb'_eq_of_agrees hagree (by omega) fun k _ hk => by simp [readsBit, show k < 4 by omega]

theorem cmdN_eq_of_agrees (hop : cmdOp w = 0 ∨ cmdOp w = 2 ∨ cmdOp w = 6 ∨ cmdOp w = 11) : cmdN w' = cmdN w :=
  extractLsb'_eq_of_agrees hagree (by omega) fun k hlo hhi => by
    rcases hop with hop | hop | hop | hop <;> simp [readsBit, hop, show 4 ≤ k ∧ k < 12 by omega]

theorem cmdA_eq_of_agrees (hop : (cmdOp w).toNat ∈ [1, 2, 4, 5, 6, 7, 8, 9, 10, 11]) : cmdA w' = cmdA w :=
  extractLsb'_eq_of_agrees hagree (by omega) fun k hlo hhi => by
    have hmem := hop
    simp only [List.mem_cons, List.not_mem_nil, or_false] at hmem
    simp [readsBit, hmem, show 12 ≤ k ∧ k < 268 by omega]

theorem cmdB_eq_of_agrees (hop : cmdOp w = 9 ∨ cmdOp w = 10) : cmdB w' = cmdB w :=
  extractLsb'_eq_of_agrees hagree (by omega) fun k hlo hhi => by
    rcases hop with hop | hop <;> simp [readsBit, hop, show 268 ≤ k ∧ k < 524 by omega]

/-- DIMS reads the header alone. -/
theorem hdr_cmdA_eq_of_agrees (hop : cmdOp w = 3) : hdr (cmdA w') = hdr (cmdA w) := by
  have hbits : w'.extractLsb' 12 4 = w.extractLsb' 12 4 :=
    extractLsb'_eq_of_agrees hagree (by omega) fun k hlo hhi => by
      simp [readsBit, hop, show 12 ≤ k ∧ k < 16 by omega]
  have hhdr : ∀ v : CmdWord, hdr (cmdA v) = (v.extractLsb' 12 4).toNat := fun v => by
    rw [hdr, cmdA]
    refine congrArg BitVec.toNat (BitVec.eq_of_getLsbD_eq fun k hk => ?_)
    simp only [BitVec.getLsbD_extractLsb', hk, show k < 256 by omega, decide_true, Bool.true_and, Nat.zero_add]
  rw [hhdr, hhdr, hbits]

theorem cmdV_eq_of_agrees {j : Nat} (hj : j < 24) (hread : ReadsLane w j) : cmdV w' j = cmdV w j :=
  extractLsb'_eq_of_agrees hagree (by omega) fun _ => readsBit_of_readsLane hread

theorem cmdLanes_eq_of_agrees (hop : cmdOp w = 0 ∨ cmdOp w = 6) :
    cmdLanes w' (lanesRead (cmdN w)) = cmdLanes w (lanesRead (cmdN w)) :=
  List.map_congr_left fun j hj => by
    have hlt := List.mem_range.1 hj
    have h12 := lanesRead_le (cmdN w)
    exact cmdV_eq_of_agrees hagree (by omega) (.inl ⟨hop, hlt⟩)

/-- INRANGE reads of its pairs those that bind a coordinate (`44_predicates.md` R139). -/
theorem getD_cmdPairs_eq_of_agrees (hop : cmdOp w = 11) {k : Nat} (hk : k < min (cmdN w).toNat (hdr (cmdA w)))
    (hd : hdr (cmdA w) ≤ 12) :
    (cmdPairs w' (lanesRead (cmdN w))).getD k (0, 0) = (cmdPairs w (lanesRead (cmdN w))).getD k (0, 0) := by
  have hlt : k < lanesRead (cmdN w) := by simp only [lanesRead, Config.maxDims]; omega
  have hmin : cmdV w' (2 * k) = cmdV w (2 * k) :=
    cmdV_eq_of_agrees hagree (by omega) (.inr (.inr (.inr ⟨hop, by omega⟩)))
  have hmax : cmdV w' (2 * k + 1) = cmdV w (2 * k + 1) :=
    cmdV_eq_of_agrees hagree (by omega) (.inr (.inr (.inr ⟨hop, by omega⟩)))
  simp only [cmdPairs]
  rw [List.getD_eq_getElem _ _ (by simpa using hlt), List.getD_eq_getElem _ _ (by simpa using hlt)]
  simp only [List.getElem_map, List.getElem_range, hmin, hmax]

end

/-- The outcome of INRANGE depends on no pair but those that bind a coordinate. -/
theorem exec_inRange_congr {n : Cnt} {a : Addr} {ps ps' : List (Lane × Lane)} (s : State)
    (h : hdr a ≤ 12 → ∀ k < min n.toNat (hdr a), ps'.getD k (0, 0) = ps.getD k (0, 0)) :
    exec (.inRange n a ps') s = exec (.inRange n a ps) s := by
  rcases Nat.lt_or_ge 12 (hdr a) with hbad | hd
  · rw [exec_malformed s rfl hbad, exec_malformed s rfl hbad]
  · have hflag : pairsHold n.toNat ps' (dec a) = pairsHold n.toNat ps (dec a) := by
      rw [Bool.eq_iff_iff, pairsHold_iff, pairsHold_iff, length_dec]
      exact forall₃_congr fun k hn hk => by rw [h hd k (lt_min hn hk)]
    rw [exec_inRange_of_header n ps' s hd, exec_inRange_of_header n ps s hd, hflag]

theorem opcode_cases (op : BitVec 4) :
    op = 0 ∨ op = 1 ∨ op = 2 ∨ op = 3 ∨ op = 4 ∨ op = 5 ∨ op = 6 ∨ op = 7 ∨ op = 8 ∨ op = 9 ∨ op = 10 ∨ op = 11 ∨
      12 ≤ op.toNat := by
  revert op; decide

/-- Settles O4: the two words have one opcode, and every field and lane that opcode's command reads is the same; DIMS and
INRANGE decode to other terms, which their meanings do not tell apart. -/
theorem unreadBitsDoNotChangeTheResponse : Obligations.UnreadBitsDoNotChangeTheResponse := by
  intro w w' s hagree
  have hsame := cmdOp_eq_of_agrees hagree
  have hV : ∀ {j}, j < 2 → ReadsLane w j → cmdV w' j = cmdV w j := fun hj => cmdV_eq_of_agrees hagree (by omega)
  have hA := cmdA_eq_of_agrees hagree
  rcases opcode_cases (cmdOp w) with hop | hop | hop | hop | hop | hop | hop | hop | hop | hop | hop | hop | hop
  · rw [decode_of_opcode_zero hop, decode_of_opcode_zero (hsame.trans hop), cmdN_eq_of_agrees hagree (by simp [hop]),
      cmdLanes_eq_of_agrees hagree (by simp [hop])]
  · rw [decode_of_opcode_one hop, decode_of_opcode_one (hsame.trans hop), hA (by simp [hop])]
  · rw [decode_of_opcode_two hop, decode_of_opcode_two (hsame.trans hop), hA (by simp [hop]),
      cmdN_eq_of_agrees hagree (by simp [hop])]
  · rw [decode_of_opcode_three hop, decode_of_opcode_three (hsame.trans hop), exec, exec, execDims, execDims,
      hdr_cmdA_eq_of_agrees hagree hop]
  · rw [decode_of_opcode_four hop, decode_of_opcode_four (hsame.trans hop), hA (by simp [hop]),
      hV (by decide) (by simp [ReadsLane, hop])]
  · rw [decode_of_opcode_five hop, decode_of_opcode_five (hsame.trans hop), hA (by simp [hop])]
  · rw [decode_of_opcode_six hop, decode_of_opcode_six (hsame.trans hop), hA (by simp [hop]),
      cmdN_eq_of_agrees hagree (by simp [hop]), cmdLanes_eq_of_agrees hagree (by simp [hop])]
  · rw [decode_of_opcode_seven hop, decode_of_opcode_seven (hsame.trans hop), hA (by simp [hop]),
      hV (by decide) (by simp [ReadsLane, hop]), hV (by decide) (by simp [ReadsLane, hop])]
  · rw [decode_of_opcode_eight hop, decode_of_opcode_eight (hsame.trans hop), hA (by simp [hop]),
      hV (by decide) (by simp [ReadsLane, hop]), hV (by decide) (by simp [ReadsLane, hop])]
  · rw [decode_of_opcode_nine hop, decode_of_opcode_nine (hsame.trans hop), hA (by simp [hop]),
      cmdB_eq_of_agrees hagree (by simp [hop])]
  · rw [decode_of_opcode_ten hop, decode_of_opcode_ten (hsame.trans hop), hA (by simp [hop]),
      cmdB_eq_of_agrees hagree (by simp [hop])]
  · rw [decode_of_opcode_eleven hop, decode_of_opcode_eleven (hsame.trans hop), hA (by simp [hop]),
      cmdN_eq_of_agrees hagree (by simp [hop])]
    exact exec_inRange_congr s fun hd k hk => getD_cmdPairs_eq_of_agrees hagree hop hk hd
  · obtain ⟨-, hillegal⟩ := illegalOpcodesAnswerIllegalOp
    rw [hillegal w s hop, hillegal w' s (by rwa [hsame]), hsame]

/-! ## Words written out in the spec -/

/-- Settles O1: seven closed words, evaluated. -/
theorem specWordsDecodeToTheirCommands : Obligations.SpecWordsDecodeToTheirCommands := by
  refine ⟨?_, ?_, ?_, ?_, ?_, ?_, ?_⟩ <;> decide +kernel

end Sys2Proof.Machine
end

section
/-! The response word: its fields stand apart (`30_encoding.md` R66), and the fields a response sets (R67, R68, R70). -/

namespace Sys2Proof.Machine

/-! ## Reading a field back from a word -/

theorem extractLsb'_placeField_same {w lo n : Nat} (x : BitVec n) (h : lo + n ≤ w) :
    (placeField w lo x).extractLsb' lo n = x := by
  apply BitVec.eq_of_getLsbD_eq
  intro k hk
  rw [BitVec.getLsbD_extractLsb', getLsbD_placeField]
  simp [hk, show lo + k < w by omega]

/-- A field that stands elsewhere is not seen. -/
theorem extractLsb'_placeField_apart {w lo n start len : Nat} (x : BitVec n) (h : start + len ≤ lo ∨ lo + n ≤ start) :
    (placeField w lo x).extractLsb' start len = 0 := by
  apply BitVec.eq_of_getLsbD_eq
  intro k hk
  rw [BitVec.getLsbD_extractLsb', getLsbD_placeField]
  rcases h with h | h
  · simp [show ¬ lo ≤ start + k by omega]
  · simp [BitVec.getLsbD_of_ge x (start + k - lo) (by omega)]

theorem extractLsb'_placeLanes_lane {w lo j : Nat} (vs : List Lane) (h : lo + 64 * j + 64 ≤ w) :
    (placeLanes w lo vs).extractLsb' (lo + 64 * j) 64 = vs.getD j 0 := by
  apply BitVec.eq_of_getLsbD_eq
  intro k hk
  rw [BitVec.getLsbD_extractLsb', getLsbD_placeLanes, show lo + 64 * j + k - lo = k + 64 * j by omega,
    Nat.add_mul_div_left _ _ (by decide), Nat.add_mul_mod_self_left, Nat.div_eq_of_lt hk, Nat.mod_eq_of_lt hk, Nat.zero_add]
  simp [hk, show lo + 64 * j + k < w by omega, show lo ≤ lo + 64 * j + k by omega]

theorem extractLsb'_placeLanes_apart {w lo start len : Nat} (vs : List Lane)
    (h : start + len ≤ lo ∨ lo + 64 * vs.length ≤ start) : (placeLanes w lo vs).extractLsb' start len = 0 := by
  apply BitVec.eq_of_getLsbD_eq
  intro k hk
  rw [BitVec.getLsbD_extractLsb', getLsbD_placeLanes]
  rcases h with h | h
  · simp [show ¬ lo ≤ start + k by omega]
  · rw [List.getD_eq_default _ _ (by omega)]; simp

/-- One bit is a field of width 1. -/
theorem getLsbD_eq_of_extractLsb' {w : Nat} {x : BitVec w} {k : Nat} {b : Bool}
    (h : x.extractLsb' k 1 = BitVec.ofBool b) : x.getLsbD k = b := by
  have h0 := congrArg (BitVec.getLsbD · 0) h
  simpa using h0

/-! ## The fields of a response word -/

/-- Every field but the one read stands apart from the bits read. -/
theorem extractLsb'_packRsp (f : RspFields) (start len : Nat) :
    (packRsp f).extractLsb' start len =
      (placeField 1305 0 f.status).extractLsb' start len |||
      (placeField 1305 4 (BitVec.ofBool f.flag)).extractLsb' start len |||
      (placeField 1305 5 f.cnt).extractLsb' start len ||| (placeField 1305 13 f.we).extractLsb' start len |||
      (placeField 1305 25 f.ra).extractLsb' start len ||| (placeLanes 1305 281 f.r.toList).extractLsb' start len |||
      (placeLanes 1305 1049 f.info.toList).extractLsb' start len := by
  simp only [packRsp, BitVec.extractLsb'_or]

theorem status_of_packRsp (f : RspFields) : (packRsp f).extractLsb' 0 4 = f.status := by
  rw [extractLsb'_packRsp, extractLsb'_placeField_same _ (by decide)]
  simp [extractLsb'_placeField_apart, extractLsb'_placeLanes_apart]

theorem flag_of_packRsp (f : RspFields) : (packRsp f).getLsbD 4 = f.flag := by
  apply getLsbD_eq_of_extractLsb'
  rw [extractLsb'_packRsp, extractLsb'_placeField_same (BitVec.ofBool f.flag) (by decide)]
  simp [extractLsb'_placeField_apart, extractLsb'_placeLanes_apart]

theorem cnt_of_packRsp (f : RspFields) : (packRsp f).extractLsb' 5 8 = f.cnt := by
  rw [extractLsb'_packRsp, extractLsb'_placeField_same f.cnt (by decide)]
  simp [extractLsb'_placeField_apart, extractLsb'_placeLanes_apart]

theorem we_of_packRsp (f : RspFields) : (packRsp f).extractLsb' 13 12 = f.we := by
  rw [extractLsb'_packRsp, extractLsb'_placeField_same f.we (by decide)]
  simp [extractLsb'_placeField_apart, extractLsb'_placeLanes_apart]

theorem ra_of_packRsp (f : RspFields) : (packRsp f).extractLsb' 25 256 = f.ra := by
  rw [extractLsb'_packRsp, extractLsb'_placeField_same f.ra (by decide)]
  simp [extractLsb'_placeField_apart, extractLsb'_placeLanes_apart]

theorem r_of_packRsp (f : RspFields) (k : Fin 12) : (packRsp f).extractLsb' (281 + 64 * k) 64 = f.r[k] := by
  have hk := k.isLt
  rw [extractLsb'_packRsp, extractLsb'_placeLanes_lane f.r.toList (by omega),
    extractLsb'_placeLanes_apart f.info.toList (.inl (by omega))]
  simp (disch := omega) [extractLsb'_placeField_apart, List.getD_eq_getElem?_getD]

theorem info_of_packRsp (f : RspFields) (j : Fin 4) : (packRsp f).extractLsb' (1049 + 64 * j) 64 = f.info[j] := by
  have hj := j.isLt
  rw [extractLsb'_packRsp, extractLsb'_placeLanes_lane f.info.toList (by omega),
    extractLsb'_placeLanes_apart f.r.toList (.inr (by simp))]
  simp (disch := omega) [extractLsb'_placeField_apart, List.getD_eq_getElem?_getD]

/-- Settles O5, field by field. -/
theorem responseFieldsStandAtTheirBits : Obligations.ResponseFieldsStandAtTheirBits := fun f =>
  ⟨status_of_packRsp f, flag_of_packRsp f, cnt_of_packRsp f, we_of_packRsp f, ra_of_packRsp f, r_of_packRsp f,
    info_of_packRsp f⟩

/-! ## The word of an error -/

/-- The integer an `info` lane carries comes back (`00_scope.md` R9). -/
theorem toInt_sext {x : Int} (h : FitsLane x) : (sext x).toInt = x := by
  obtain ⟨hlo, hhi⟩ := h
  rw [sext, BitVec.toInt_ofInt]
  exact Int.bmod_eq_of_le (by omega) (by omega)

theorem toNat_sext {n : Nat} (h : n < 2 ^ 63) : (sext n).toInt.toNat = n := by
  rw [toInt_sext ⟨by omega, by omega⟩, Int.toNat_natCast]

/-- The record a host reads from the status and the `info` lanes of an error response (`30_encoding.md` R67, R68). -/
def readRecord (status : BitVec 4) (info : Vector Lane 4) : ErrorRecord :=
  match status.toNat with
  | 1 => .dimensionLimitExceeded info[0].toInt.toNat
  | 2 => .coordinateOutOfRange info[0].toInt.toNat info[1].toInt
  | 3 => .indexOutOfRange info[0].toInt info[1].toInt.toNat
  | 4 => .bufferTooSmall info[0].toInt.toNat info[1].toInt.toNat
  | 5 => .rangeInvalid info[0].toInt info[1].toInt info[2].toInt.toNat
  | 6 => .malformedAddress (if info[0] = 0 then .a else .b) info[1].toInt.toNat
  | _ => .illegalOp info[0].toInt.toNat

/-- Reading the fields of an error that the unit can give loses nothing: its integers fit their lanes. -/
theorem readRecord_fields {e : ErrorRecord} (h : (Response.err e).Legal) : readRecord e.status e.info = e := by
  cases e with
  | dimensionLimitExceeded requested =>
    obtain ⟨-, hle⟩ := h
    simp [readRecord, ErrorRecord.status, ErrorRecord.info, toNat_sext (show requested < 2 ^ 63 by omega)]
  | coordinateOutOfRange index value =>
    obtain ⟨hlt, -, hvalue⟩ := h
    simp [readRecord, ErrorRecord.status, ErrorRecord.info, toNat_sext (show index < 2 ^ 63 by omega), toInt_sext hvalue]
  | indexOutOfRange index dims =>
    obtain ⟨hle, -, hindex⟩ := h
    simp [readRecord, ErrorRecord.status, ErrorRecord.info, toNat_sext (show dims < 2 ^ 63 by omega), toInt_sext hindex]
  | bufferTooSmall needed given =>
    obtain ⟨hlt, hle⟩ := h
    simp [readRecord, ErrorRecord.status, ErrorRecord.info, toNat_sext (show needed < 2 ^ 63 by omega),
      toNat_sext (show given < 2 ^ 63 by omega)]
  | rangeInvalid lo hi dims =>
    obtain ⟨hle, -, hlo, hhi⟩ := h
    simp [readRecord, ErrorRecord.status, ErrorRecord.info, toNat_sext (show dims < 2 ^ 63 by omega), toInt_sext hlo,
      toInt_sext hhi]
  | malformedAddress operand header =>
    obtain ⟨-, hle⟩ := h
    have hzero : sext 0 = 0 := rfl
    have hone : sext 1 ≠ 0#64 := by decide
    cases operand <;>
      simp [readRecord, ErrorRecord.status, ErrorRecord.info, Operand.number, hzero, hone,
        toNat_sext (show header < 2 ^ 63 by omega)]
  | illegalOp op =>
    obtain ⟨-, hle⟩ := h
    simp [readRecord, ErrorRecord.status, ErrorRecord.info, toNat_sext (show op < 2 ^ 63 by omega)]

/-- Settles O6: the word gives back the status and the `info` lanes, and these the record (`readRecord_fields`). -/
theorem errorWordDeterminesItsRecord : Obligations.ErrorWordDeterminesItsRecord := by
  intro e e' hlegal hlegal' hword
  have hstatus : e.status = e'.status := by
    have h := congrArg (BitVec.extractLsb' 0 4) hword
    simpa only [Response.word, status_of_packRsp, Response.fields] using h
  have hinfo : e.info = e'.info := by
    apply Vector.ext
    intro j hj
    have h := congrArg (BitVec.extractLsb' (1049 + 64 * j) 64) hword
    have hlane := info_of_packRsp (j := ⟨j, hj⟩)
    simp only [Response.word, hlane, Response.fields] at h
    exact h
  rw [← readRecord_fields hlegal, ← readRecord_fields hlegal', hstatus, hinfo]

/-! ## The fields a response sets -/

theorem status_ne_zero (e : ErrorRecord) : e.status ≠ 0 := by cases e <;> simp [ErrorRecord.status]

/-- Settles O7: an error leaves the result fields as `zeroFields` has them; the status and the lanes of each error are those
of its definition. -/
theorem errorResponseFields : Obligations.ErrorResponseFields := by
  refine ⟨fun e => ⟨status_ne_zero e, rfl, rfl, rfl, rfl, fun k => Vector.getElem_replicate _⟩, fun n => ⟨rfl, rfl⟩,
    fun i v => ⟨rfl, rfl⟩, fun i d => ⟨rfl, rfl⟩, fun needed given => ⟨rfl, rfl⟩, fun lo hi d => ⟨rfl, rfl⟩,
    fun h => ⟨rfl, rfl, rfl, rfl⟩, fun op => ⟨rfl, rfl⟩⟩

/-- Settles O8: each result sets one field of `zeroFields`. -/
theorem resultResponseFields : Obligations.ResultResponseFields :=
  ⟨fun _ => rfl, fun _ => rfl, fields_coordinate, fun _ => rfl⟩

theorem getLsbD_we_tupleFields (cs : List Nat) (i : Fin 12) :
    (tupleFields cs).we.getLsbD i = decide (i.val < cs.length) := by
  simp [tupleFields]

theorem getElem_r_tupleFields (cs : List Nat) (i : Fin 12) :
    (tupleFields cs).r[i] = if i.val < cs.length then coordLane (cs.getD i 0) else 0 := by
  simp [tupleFields]

/-- Settles O9: DECODE and DECODE_BUF answer with the same `tupleFields`. -/
theorem tupleResponseFields : Obligations.TupleResponseFields := fun cs =>
  ⟨rfl, rfl, rfl, rfl, rfl, rfl, fun i => ⟨getLsbD_we_tupleFields cs i, getElem_r_tupleFields cs i⟩⟩

end Sys2Proof.Machine
end

section
/-! The bits of an address: where they stand (`20_memory.md` R40, R42), and what fixes a canonical address
(`10_state.md` R26, `40_encoder.md` R93, R104). -/

namespace Sys2Proof.Machine

/-! ## Positions -/

theorem offset_sub_div {d p i : Nat} (hi : i < d) : (offset d p i - 4) / d = p := by
  rw [show offset d p i - 4 = i + d * p by simp only [offset]; rw [Nat.mul_comm d]; omega,
    Nat.add_mul_div_left _ _ (by omega), Nat.div_eq_of_lt hi, Nat.zero_add]

theorem offset_sub_mod {d p i : Nat} (hi : i < d) : (offset d p i - 4) % d = i := by
  rw [show offset d p i - 4 = i + d * p by simp only [offset]; rw [Nat.mul_comm d]; omega,
    Nat.add_mul_mod_self_left, Nat.mod_eq_of_lt hi]

/-- Every position of the coordinate field is the offset of one bit of one coordinate. -/
theorem offset_div_mod {d k : Nat} (hlo : 4 ≤ k) (hhi : k < 4 + 20 * d) :
    (k - 4) / d < 20 ∧ (k - 4) % d < d ∧ offset d ((k - 4) / d) ((k - 4) % d) = k := by
  refine ⟨Nat.div_lt_of_lt_mul (by rw [Nat.mul_comm]; omega), Nat.mod_lt _ (by omega), ?_⟩
  have hdiv := Nat.div_add_mod' (k - 4) d
  simp only [offset]
  omega

/-- Settles O45: `offset_lt` bounds the offsets, and division by the dimension count inverts them. -/
theorem offsetsFillTheCoordinateField : Obligations.OffsetsFillTheCoordinateField := by
  intro d _ hd
  refine ⟨fun p i hp hi => ?_, fun k hlo hhi => offset_div_mod hlo (by omega)⟩
  obtain ⟨hlt, -⟩ := offset_lt hd hp hi
  exact ⟨by simp only [offset]; omega, by omega, offset_sub_div hi, offset_sub_mod hi⟩

/-- A position is in the header, in the coordinate field, or past both. -/
theorem position_cases (d k : Nat) :
    k < 4 ∨ (∃ p < 20, ∃ i < d, k = offset d p i) ∨ 4 + 20 * d ≤ k := by
  rcases Nat.lt_or_ge k 4 with h | hlo
  · exact .inl h
  rcases Nat.lt_or_ge k (4 + 20 * d) with hhi | h
  · obtain ⟨hp, hi, hk⟩ := offset_div_mod hlo hhi
    exact .inr (.inl ⟨_, hp, _, hi, hk.symm⟩)
  · exact .inr (.inr h)

theorem getLsbD_addrWord (a : Addr) (j i : Nat) :
    (addrWord a j).getLsbD i = (decide (i < 64) && a.getLsbD (64 * j + i)) :=
  BitVec.getLsbD_extractLsb' _ _ _ _

/-- The four words of an address, joined, are the address. -/
theorem addrOfWords_addrWord (a : Addr) : addrOfWords (addrWord a 3) (addrWord a 2) (addrWord a 1) (addrWord a 0) = a := by
  apply BitVec.eq_of_getLsbD_eq
  intro k hk
  simp only [addrOfWords, BitVec.getLsbD_append, getLsbD_addrWord]
  split_ifs with h0 h1 h2
  · rw [decide_eq_true h0, Bool.true_and, Nat.mul_zero, Nat.zero_add]
  · rw [decide_eq_true h1, Bool.true_and, show 64 * 1 + (k - 64) = k by omega]
  · rw [decide_eq_true h2, Bool.true_and, show 64 * 2 + (k - 64 - 64) = k by omega]
  · rw [decide_eq_true (by omega), Bool.true_and, show 64 * 3 + (k - 64 - 64 - 64) = k by omega]

/-- Settles O44: the words are `extractLsb'` of the address, read bit by bit (`getLsbD_addrWord`). -/
theorem addressIsItsFourWords : Obligations.AddressIsItsFourWords := by
  refine fun a => ⟨addrOfWords_addrWord a, fun k hk => ?_⟩
  rw [getLsbD_addrWord, decide_eq_true (Nat.mod_lt k (by decide)), Bool.true_and, Nat.div_add_mod]

/-! ## Canonical addresses -/

theorem getLsbD_offset (a : Addr) {p i : Nat} (hp : p < 20) :
    a.getLsbD (offset (hdr a) p i) = (extractCoord a i).testBit p := by
  rw [extractCoord_testBit, decide_eq_true hp, Bool.true_and]

theorem getLsbD_of_canonical {a : Addr} (h : Canonical a) {k : Nat} (hk : 4 + 20 * hdr a ≤ k) : a.getLsbD k = false := by
  rcases Nat.lt_or_ge 255 k with hbig | hle
  · exact BitVec.getLsbD_of_ge a k hbig
  · exact h.2 k hk hle

theorem getD_coordsOf {a : Addr} {i : Nat} (h : i < hdr a) : (coordsOf a).getD i 0 = extractCoord a i := by
  rw [← dec_eq_coordsOf, dec_getD a h]

/-- Used bits are those of the header and of the coordinates, so two addresses with the same tuple share them. -/
theorem getLsbD_eq_of_coordsOf_eq {a b : Addr} (h : coordsOf a = coordsOf b) {k : Nat} (hk : k < 4 + 20 * hdr a) :
    a.getLsbD k = b.getLsbD k := by
  have hhdr : hdr a = hdr b := by rw [← length_coordsOf, h, length_coordsOf]
  rcases position_cases (hdr a) k with hk4 | ⟨p, hp, i, hi, rfl⟩ | hout
  · have hbit := congrArg (Nat.testBit · k) hhdr
    simpa only [hdr_testBit, hk4, decide_true, Bool.true_and] using hbit
  · rw [getLsbD_offset a hp, hhdr, getLsbD_offset b hp, ← getD_coordsOf hi, h, getD_coordsOf (hhdr ▸ hi)]
  · omega

/-- A canonical address is fixed by its tuple. -/
theorem eq_of_canonical {a b : Addr} (ha : Canonical a) (hb : Canonical b) (h : coordsOf a = coordsOf b) : a = b := by
  have hhdr : hdr a = hdr b := by rw [← length_coordsOf, h, length_coordsOf]
  apply BitVec.eq_of_getLsbD_eq
  intro k _
  rcases Nat.lt_or_ge k (4 + 20 * hdr a) with hk | hk
  · exact getLsbD_eq_of_coordsOf_eq h hk
  · rw [getLsbD_of_canonical ha hk, getLsbD_of_canonical hb (hhdr ▸ hk)]

/-! ## The round trip -/

theorem length_dec_le {a : Addr} (h : hdr a ≤ 12) : (dec a).length ≤ 12 := by rwa [length_dec]

theorem coordsOf_enc_dec {a : Addr} (h : hdr a ≤ 12) : coordsOf (enc (dec a)) = coordsOf a := by
  rw [coordsOf_enc (length_dec_le h) fun _ => le_of_mem_dec, dec_eq_coordsOf]

theorem getLsbD_enc_dec {a : Addr} (h : hdr a ≤ 12) (k : Nat) :
    (enc (dec a)).getLsbD k = (decide (k < 4 + 20 * hdr a) && a.getLsbD k) := by
  by_cases hk : k < 4 + 20 * hdr a
  · rw [decide_eq_true hk, Bool.true_and, getLsbD_eq_of_coordsOf_eq (coordsOf_enc_dec h).symm hk]
  · rw [decide_eq_false hk, Bool.false_and, enc_unused_bit (length_dec_le h) (by rw [length_dec]; omega)]

theorem enc_dec_eq_iff {a : Addr} (h : hdr a ≤ 12) : enc (dec a) = a ↔ Canonical a := by
  have hcanon : Canonical (enc (dec a)) := enc_canonical (length_dec_le h)
  exact ⟨fun heq => heq ▸ hcanon, fun ha => eq_of_canonical hcanon ha (coordsOf_enc_dec h)⟩

/-- Settles O40: decoding inverts encoding on valid tuples (`coordsOf_enc`), and encoding the decoded tuple keeps exactly the
used bits (`getLsbD_enc_dec`). -/
theorem roundTripLaws : Obligations.RoundTripLaws :=
  ⟨fun _ hd hc => (dec_eq_coordsOf _).trans (coordsOf_enc hd hc),
    fun a h => ⟨getLsbD_enc_dec h, enc_dec_eq_iff h, length_dec a⟩⟩

end Sys2Proof.Machine
end

section
/-! The answers of the commands, bit by bit: ENCODE and WITH (`40_encoder.md` R93, `43_transformers.md` R123), and the whole
slice (R125). -/

namespace Sys2Proof.Machine

/-! ## The bits of the address of a sequence -/

theorem getLsbD_header (a : Addr) {k : Nat} (hk : k < 4) : a.getLsbD k = (hdr a).testBit k := by
  rw [hdr_testBit, decide_eq_true hk, Bool.true_and]

theorem extractCoord_of_isAddressOf {A : Addr} {cs : List Int} (h : IsAddressOf A cs) {i : Nat} (hi : i < hdr A) :
    (extractCoord A i : Int) = cs.getD i 0 := by
  obtain ⟨-, rfl⟩ := h
  exact (congrArg Int.ofNat (getD_coordsOf hi)).symm.trans (List.getD_map (coordsOf A) 0 Int.ofNat).symm

/-- A natural number a lane holds has the lane's bits. -/
theorem testBit_of_eq_toInt {x : Nat} {v : Lane} (h : (x : Int) = v.toInt) (p : Nat) : x.testBit p = v.getLsbD p := by
  have hx : x = v.toNat := by
    rw [BitVec.toInt_eq_toNat_cond] at h
    have hlt := v.isLt
    split at h <;> omega
  rw [hx, BitVec.testBit_toNat]

/-- Where the sequence holds a lane's integer, the address holds the lane's bits. -/
theorem getLsbD_offset_of_isAddressOf {A : Addr} {cs : List Int} (h : IsAddressOf A cs) {p i : Nat} {v : Lane}
    (hp : p < 20) (hi : i < hdr A) (hv : cs.getD i 0 = v.toInt) :
    A.getLsbD (offset (hdr A) p i) = v.getLsbD p := by
  rw [getLsbD_offset A hp]
  exact testBit_of_eq_toInt ((extractCoord_of_isAddressOf h hi).trans hv) p

/-- Settles O11: the address of ENCODE is canonical and holds exactly the coordinates (O10), and every position of the
coordinate field is one offset (`offset_div_mod`). -/
theorem encodeAddressBitByBit : Obligations.EncodeAddressBitByBit := by
  intro n coords s hwf hn hc
  obtain ⟨-, -, hvalid⟩ := encodeAnswers.2 n coords s hwf
  obtain ⟨A, hexec, -, hhdr, haddr⟩ := hvalid hn hc
  refine ⟨A, hexec, fun k hk => ?header, fun k hlo hhi => ?coordinate, fun k hk => ?unused⟩
  case header => rw [getLsbD_header A hk, hhdr, BitVec.testBit_toNat]
  case coordinate =>
    obtain ⟨hp, hi, hoffset⟩ := offset_div_mod hlo hhi
    have hbit := getLsbD_offset_of_isAddressOf haddr hp (hhdr.symm ▸ hi) (List.getD_map coords 0 BitVec.toInt)
    rwa [hhdr, hoffset] at hbit
  case unused => exact getLsbD_of_canonical haddr.1 (by rwa [hhdr])

/-! ## WITH -/

/-- Settles O22: the answer is the canonical address of the tuple with one entry replaced (O21); a position that is no bit of
that entry is in the header, in another entry, or unused. -/
theorem withChangesOnlyItsCoordinatesBits : Obligations.WithChangesOnlyItsCoordinatesBits := by
  intro a i value s ha h0 hlt hv
  obtain ⟨-, -, -, hvalid⟩ := withAnswers.2 a i value s
  obtain ⟨A, hexec, -, hhdr, haddr⟩ := hvalid ha.1 h0 hlt hv
  have hi : i.toInt.toNat < hdr a := (Int.toNat_lt h0).2 hlt
  refine ⟨A, hexec, fun p hp => ?replaced, fun k hk => ?kept⟩
  case replaced =>
    have hbit := getLsbD_offset_of_isAddressOf haddr hp (hhdr.symm ▸ hi) (v := value) (by
      simp [List.getD_eq_getElem?_getD, length_coordsOf, hi])
    rwa [hhdr] at hbit
  case kept =>
    rcases position_cases (hdr a) k with hk4 | ⟨p, hp, j, hj, rfl⟩ | hout
    · rw [getLsbD_header A hk4, getLsbD_header a hk4, hhdr]
    · have hne : i.toInt.toNat ≠ j := fun hij => hk p hp (by rw [hij])
      have hcoord := extractCoord_of_isAddressOf haddr (hhdr.symm ▸ hj)
      rw [List.getD_eq_getElem?_getD, List.getElem?_set_ne hne, ← List.getD_eq_getElem?_getD] at hcoord
      have hold : ((coordsOf a).map Int.ofNat).getD j 0 = extractCoord a j := by
        rw [← getD_coordsOf hj]; exact List.getD_map (coordsOf a) 0 Int.ofNat
      rw [getLsbD_offset a hp, ← hhdr, getLsbD_offset A hp, Int.ofNat_inj.1 (hcoord.trans hold)]
    · rw [getLsbD_of_canonical haddr.1 (hhdr.symm ▸ hout), getLsbD_of_canonical ha hout]

/-! ## The whole slice and the empty extension -/

theorem map_toNat_ints (cs : List Nat) : (ints cs).map Int.toNat = cs := by
  simp [ints, Function.comp_def]

/-- A decoded tuple, encoded again. -/
theorem encodeChecked_ints_dec {a : Addr} (h : hdr a ≤ 12) :
    encodeChecked (hdr a) (ints (dec a)) = .ok (.address (enc (dec a))) := by
  rw [encodeChecked_ok h inDomain_of_mem_ints_dec, map_toNat_ints]

theorem subSeq_whole (cs : List Nat) : subSeq cs 0 cs.length = cs := by
  rw [subSeq, List.take_length, List.drop_zero]

theorem exec_slice_whole {a : Addr} (s : State) (h : hdr a ≤ 12) :
    exec (.slice a 0 (BitVec.ofNat 64 (hdr a))) s = .next (s.setRsp (.ok (.address (enc (dec a))))) := by
  have hlo : (0 : Lane).toInt = 0 := rfl
  have hhi : (BitVec.ofNat 64 (hdr a)).toInt = hdr a := by
    rw [BitVec.toInt_ofNat']
    exact Int.bmod_eq_of_le (by omega) (by omega)
  have hwhole : subSeq (dec a) 0 (hdr a) = dec a := by rw [← length_dec a, subSeq_whole]
  rw [exec_slice_of_header _ _ s h, hlo, hhi, checkRange_ok (by omega), except_ok_bind, Int.toNat_zero, Int.toNat_natCast,
    hwhole, length_dec, encodeChecked_ints_dec h, complete_ok]

theorem exec_append_nothing {a : Addr} (s : State) (h : hdr a ≤ 12) :
    exec (.append 0 a []) s = .next (s.setRsp (.ok (.address (enc (dec a))))) := by
  have hnone : sints [] = [] := rfl
  have hzero : (0 : Cnt).toNat = 0 := rfl
  rw [exec_append_of_header _ _ s h, hnone, hzero, List.append_nil, Nat.add_zero, encodeChecked_ints_dec h, complete_ok]

/-- Settles O37: both commands answer `Enc(Dec(a))`, of which the round trip says the rest. -/
theorem wholeSliceAndEmptyAppendCanonicalise : Obligations.WholeSliceAndEmptyAppendCanonicalise := fun a s h =>
  ⟨enc (dec a), exec_slice_whole s h, exec_append_nothing s h, getLsbD_enc_dec h, enc_dec_eq_iff h⟩

end Sys2Proof.Machine
end

section
/-! The answers of DECODE, DECODE_BUF, DIMS, EQUAL, CONTAINS, INRANGE and what ISZERO tests (`41_decoder.md`,
`42_accessors.md`, `44_predicates.md`), and the operands on which a decoding command is refused or blind (R166, R199). -/

namespace Sys2Proof.Machine

/-! ## DECODE and DECODE_BUF -/

/-- Settles O12: the tuple of the loop is the one of the R22 formula (`dec_eq_coordsOf`). -/
theorem decodeAnswers : Obligations.DecodeAnswers := by
  refine ⟨fun w => decode_of_opcode_one, fun a s => ⟨exec_malformed s rfl, fun hd => ?_⟩⟩
  rw [← dec_eq_coordsOf]
  exact exec_decode_of_header s hd

/-- Settles O13: the header check, then the capacity check (`exec_decodeBuf_of_header`). -/
theorem decodeBufAnswers : Obligations.DecodeBufAnswers := by
  refine ⟨fun w => decode_of_opcode_two, fun n a s =>
    ⟨exec_malformed s rfl, fun hd hsmall => ?tooSmall, fun hd hroom => ?writes⟩⟩
  case tooSmall => rw [exec_decodeBuf_of_header n s hd, checkCapacity_error hsmall]; rfl
  case writes =>
    rw [exec_decodeBuf_of_header n s hd, checkCapacity_ok hroom, ← dec_eq_coordsOf]; rfl

/-! ## DIMS and ISZERO -/

theorem hdr_eq_toNat_mod (a : Addr) : hdr a = a.toNat % 16 := by
  rw [hdr, BitVec.extractLsb'_toNat, Nat.shiftRight_zero]

/-- Settles O14: the header is the address modulo 16. -/
theorem dimsAnswers : Obligations.DimsAnswers := by
  refine ⟨fun w => decode_of_opcode_three, fun a s => ?_⟩
  rw [← hdr_eq_toNat_mod]; rfl

/-- All coordinates are zero exactly if the coordinate field is: each of its positions is a bit of some coordinate. -/
theorem coords_zero_iff_field_zero (a : Addr) :
    (∀ i, i < hdr a → extractCoord a i = 0) ↔ ∀ k, 4 ≤ k → k ≤ 3 + 20 * hdr a → a.getLsbD k = false := by
  constructor
  · intro hzero k hlo hhi
    obtain ⟨hp, hi, hk⟩ := offset_div_mod hlo (by omega : k < 4 + 20 * hdr a)
    rw [← hk, getLsbD_offset a hp, hzero _ hi, Nat.zero_testBit]
  · intro hzero i hi
    apply Nat.eq_of_testBit_eq
    intro p
    rw [extractCoord_testBit, Nat.zero_testBit, Bool.and_eq_false_imp]
    intro hp
    have hp20 : p * hdr a ≤ 19 * hdr a := Nat.mul_le_mul_right _ (Nat.le_of_lt_succ (of_decide_eq_true hp))
    exact hzero _ (by simp only [offset]; omega) (by simp only [offset]; omega)

/-- An answered flag is the flag the meaning computes. -/
theorem flag_answer_iff {s : State} {b b' : Bool} :
    (.next (s.setRsp (.ok (.flag b))) : Host.Outcome State Fault Refusal) = .next { s with rsp := some (.ok (.flag b')) } ↔
      b = b' :=
  ⟨fun h => Result.flag.inj (Response.ok.inj (next_setRsp_inj h)), fun h => h ▸ rfl⟩

/-- Settles O18: the flag says whether all coordinates are zero (O17), which `coords_zero_iff_field_zero` reads off the
field. -/
theorem isZeroTestsTheCoordinateField : Obligations.IsZeroTestsTheCoordinateField := by
  intro a s hd
  rw [exec_isZero_of_header s hd, flag_answer_iff, allZero_dec_iff, coords_zero_iff_field_zero]

/-! ## EQUAL -/

theorem sameBits_iff_eq (a b : Addr) : sameBits a b = true ↔ a = b := by
  rw [sameBits_iff]
  exact ⟨BitVec.eq_of_getLsbD_eq, fun h _ _ => h ▸ rfl⟩

theorem exec_equal (a b : Addr) (s : State) : exec (.equal a b) s = .next (s.setRsp (.ok (.flag (sameBits a b)))) := rfl

/-- Settles O23: the flag compares all 256 bits. -/
theorem equalAnswers : Obligations.EqualAnswers :=
  ⟨fun _ => decode_of_opcode_nine, fun a b _ => ⟨sameBits a b, rfl, sameBits_iff_eq a b⟩⟩

/-- Settles O43: a canonical address is fixed by its tuple (`eq_of_canonical`), whose length is the header. -/
theorem equalOnCanonicalOperandsComparesTuples : Obligations.EqualOnCanonicalOperandsComparesTuples := by
  intro a b s ha hb
  rw [exec_equal, flag_answer_iff, sameBits_iff_eq]
  exact ⟨fun h => h ▸ ⟨rfl, rfl⟩, fun ⟨_, h⟩ => eq_of_canonical ha hb h⟩

/-! ## CONTAINS -/

theorem prefixOf_iff_isPrefix (sa sb : List Nat) : prefixOf sa sb = true ↔ sa <+: sb := by
  rw [prefixOf_iff, List.prefix_iff_getElem, ← exists_prop]
  refine exists_congr fun hle => forall₂_congr fun i hi => ?_
  rw [List.getD_eq_getElem _ _ hi, List.getD_eq_getElem _ _ (hi.trans_le hle)]

theorem exec_contains {a b : Addr} (s : State) (ha : hdr a ≤ 12) (hb : hdr b ≤ 12) :
    exec (.contains a b) s = .next (s.setRsp (.ok (.flag (prefixOf (dec a) (dec b))))) := by
  rw [exec_contains_of_header b s ha, decodeChecked_ok .b hb, except_ok_bind, complete_ok]

theorem prefixOf_dec_iff (a b : Addr) :
    prefixOf (dec a) (dec b) = true ↔ hdr a ≤ hdr b ∧ ∀ i, i < hdr a → extractCoord a i = extractCoord b i := by
  rw [prefixOf_iff, length_dec, length_dec]
  refine and_congr_right fun hle => forall₂_congr fun i hi => ?_
  rw [dec_getD a hi, dec_getD b (hi.trans_le hle)]

/-- Settles O24: `b` is checked only after a good `a` (`exec_contains_of_header`), and the flag is `prefixOf` of the two
tuples. -/
theorem containsAnswers : Obligations.ContainsAnswers :=
  ⟨fun _ => decode_of_opcode_ten, fun a b s =>
    ⟨exec_malformed s rfl, fun ha hb => exec_of_raises s (.malformedB ha hb),
      fun ha hb => ⟨prefixOf (dec a) (dec b), exec_contains s ha hb, prefixOf_dec_iff a b⟩⟩⟩

theorem exec_contains_true_iff {a b : Addr} (s : State) (ha : hdr a ≤ 12) (hb : hdr b ≤ 12) :
    exec (.contains a b) s = .next { s with rsp := some (.ok (.flag true)) } ↔ dec a <+: dec b := by
  rw [exec_contains s ha hb, flag_answer_iff, prefixOf_iff_isPrefix]

/-- Settles O25: CONTAINS is the order `<+:` of lists on the tuples. -/
theorem containsIsAPrefixOrder : Obligations.ContainsIsAPrefixOrder := by
  intro a b c s ha hb hc
  have hzero : hdr 0 ≤ 12 := by decide
  rw [exec_contains_true_iff s ha ha, exec_contains_true_iff s ha hb, exec_contains_true_iff s hb hc,
    exec_contains_true_iff s ha hc, exec_contains_true_iff s hb ha, exec_contains_true_iff s hzero hb, dec_zero]
  refine ⟨List.prefix_rfl, List.IsPrefix.trans, fun hab hba => ?_, List.nil_prefix⟩
  rw [← dec_eq_coordsOf, ← dec_eq_coordsOf]
  exact hab.eq_of_length (hab.length_le.antisymm hba.length_le)

/-! ## INRANGE -/

/-- Settles O26: `pairHolds_iff` reads each pair that binds a coordinate. -/
theorem inRangeAnswers : Obligations.InRangeAnswers := by
  refine ⟨fun w => decode_of_opcode_eleven, fun n a pairs s =>
    ⟨exec_malformed s rfl, fun hd => ⟨_, exec_inRange_of_header n pairs s hd, ?_⟩⟩⟩
  rw [pairsHold_iff, length_dec]
  refine forall₃_congr fun k _ hk => ?_
  rw [pairHolds_iff, dec_getD a hk]; rfl

/-! ## Malformed operands -/

theorem decodedOperand_eq_some_iff {i : Instr} {a : Addr} :
    decodedOperand i = some a ↔
      i = .decode a ∨ (∃ n, i = .decodeBuf n a) ∨ (∃ k, i = .atIndex a k) ∨ i = .isZero a ∨
        (∃ n es, i = .append n a es) ∨ (∃ l u, i = .slice a l u) ∨ (∃ k v, i = .withCoord a k v) ∨
        (∃ b, i = .contains a b) ∨ ∃ n ps, i = .inRange n a ps := by
  cases i <;> simp [decodedOperand]

/-- Settles O33: two of the causes in `Raises` have this record, one for each operand. -/
theorem malformedAddressCause : Obligations.MalformedAddressCause := by
  intro i s o h
  refine exec_raises_iff.trans ⟨fun hraises => ?cause, ?raise⟩
  case cause =>
    cases hraises with
    | malformedA hi hbad => exact .inl ⟨rfl, _, hbad, rfl, decodedOperand_eq_some_iff.1 hi⟩
    | malformedB hd hbad => exact .inr ⟨rfl, _, _, hd, hbad, rfl, rfl⟩
  case raise =>
    rintro (⟨rfl, a, hbad, rfl, hi⟩ | ⟨rfl, a, b, hd, hbad, rfl, rfl⟩)
    · exact .malformedA (decodedOperand_eq_some_iff.2 hi) hbad
    · exact .malformedB hd hbad

/-! ## Stray bits -/

/-- Settles O38: the decoding commands read an operand through its header check, its header and its tuple only, and operands
that agree on the used bits agree in these. -/
theorem strayBitsAreIgnoredByDecoders : Obligations.StrayBitsAreIgnoredByDecoders := by
  intro a a' b n extra i v pairs s hd hagree
  have hhdr : hdr a' = hdr a := hdr_eq_of_agree hagree
  have hdec : dec a' = dec a := dec_eq_of_agree hd hagree
  have hcheck : ∀ which, checkAddr a' which = checkAddr a which := fun which => by rw [checkAddr, checkAddr, hhdr]
  have hdecode : ∀ which, decodeChecked a' which = decodeChecked a which := fun which => by
    rw [decodeChecked, decodeChecked, hcheck, hdec]
  simp only [exec, execDecode, execDecodeBuf, execAt, execIsZero, execAppend, execSlice, execWith, execContains,
    execInRange, hdecode, hcheck, hhdr, hdec, and_self]

end Sys2Proof.Machine
end

section
/-! What every command does, whatever its operands: it fills the slot with a response the rules allow (`10_state.md` R29,
`60_exceptions.md` R169, R176). -/

namespace Sys2Proof.Machine

/-! ## One response per command -/

/-- Every meaning is an answer computed from the operands alone, put into the slot. -/
theorem exec_eq_complete (i : Instr) : ∃ x, ∀ s, exec i s = complete x s := by
  cases i with
  | encode n coords => exact ⟨_, exec_encode n coords⟩
  | decode a => exact ⟨_, fun _ => rfl⟩
  | decodeBuf n a => exact ⟨_, fun _ => rfl⟩
  | atIndex a idx => exact ⟨_, fun _ => rfl⟩
  | isZero a => exact ⟨_, fun _ => rfl⟩
  | append n a extra => exact ⟨_, fun _ => rfl⟩
  | slice a lo hi => exact ⟨_, fun _ => rfl⟩
  | withCoord a idx value => exact ⟨_, fun _ => rfl⟩
  | contains a b => exact ⟨_, fun _ => rfl⟩
  | inRange n a pairs => exact ⟨_, fun _ => rfl⟩
  | dims a => exact ⟨.ok (.count (hdr a)), fun _ => rfl⟩
  | equal a b => exact ⟨.ok (.flag (sameBits a b)), fun _ => rfl⟩
  | illegal12 => exact ⟨.error (.illegalOp 12), fun _ => rfl⟩
  | illegal13 => exact ⟨.error (.illegalOp 13), fun _ => rfl⟩
  | illegal14 => exact ⟨.error (.illegalOp 14), fun _ => rfl⟩
  | illegal15 => exact ⟨.error (.illegalOp 15), fun _ => rfl⟩

/-- Everything a command can do: one response, on every state. -/
theorem exec_fills_slot (i : Instr) : ∃ r, ∀ s, exec i s = .next (s.setRsp r) := by
  obtain ⟨x, hx⟩ := exec_eq_complete i
  cases x with
  | ok r => exact ⟨.ok r, hx⟩
  | error e => exact ⟨.err e, hx⟩

/-- Settles O34: `exec_fills_slot`, with the record update of `setRsp` written out. -/
theorem execFillsTheSlotAndNothingElse : Obligations.ExecFillsTheSlotAndNothingElse := exec_fills_slot

/-- A next state of a command is the state with a response in the slot. -/
theorem exists_setRsp_of_exec {i : Instr} {s t : State} (h : exec i s = .next t) : ∃ r, t = s.setRsp r := by
  obtain ⟨r, hr⟩ := exec_fills_slot i
  exact ⟨r, (Host.Outcome.next.inj ((hr s).symm.trans h)).symm⟩

/-- The answer to a word by itself is the response it fills every slot with. -/
theorem exec_eq_answer (w : CmdWord) : ∃ r, answer w = some r ∧ ∀ s, exec (decode w) s = .next (s.setRsp r) := by
  obtain ⟨r, hr⟩ := exec_fills_slot (decode w)
  exact ⟨r, by rw [answer, hr]; rfl, hr⟩

/-- Settles O39: a malformed operand is the cause of the record (`exec_raises_iff`), and a canonical one has a header of at
most 12. -/
theorem canonicalOperandsAreNeverMalformed : Obligations.CanonicalOperandsAreNeverMalformed := by
  intro i s t o h hcanonical hexec hrsp
  obtain ⟨r, rfl⟩ := exists_setRsp_of_exec hexec
  obtain rfl : r = .err (.malformedAddress o h) := Option.some.inj hrsp
  cases exec_raises_iff.1 hexec with
  | malformedA hi hbad =>
    cases i <;> cases hi
    case malformedA.contains.refl => exact absurd hbad (Nat.not_lt.2 hcanonical.1.1)
    all_goals exact absurd hbad (Nat.not_lt.2 hcanonical.1)
  | malformedB _ hbad => exact absurd hbad (Nat.not_lt.2 hcanonical.2.1)

/-! ## The statuses of a command -/

theorem status_mem_of_raises {i : Instr} {e : ErrorRecord} (h : Raises i e) : e.status ∈ allowedStatus i := by
  cases h with
  | malformedA hi _ => cases i <;> cases hi <;> simp [ErrorRecord.status, allowedStatus]
  | illegal hop =>
    cases i
    case illegal12 | illegal13 | illegal14 | illegal15 => decide
    all_goals exact absurd hop (by simp [Instr.opcode])
  | _ => simp [ErrorRecord.status, allowedStatus]

/-- Only the illegal opcodes have no success in their row. -/
theorem zero_mem_of_opcode {i : Instr} (h : i.opcode.toNat < 12) : 0 ∈ allowedStatus i := by
  cases i
  case illegal12 | illegal13 | illegal14 | illegal15 => exact absurd h (by decide)
  all_goals simp [allowedStatus]

theorem opcode_lt_of_exec_ok {i : Instr} {s : State} {r : Result} (h : exec i s = .next (s.setRsp (.ok r))) :
    i.opcode.toNat < 12 := by
  by_contra hop
  cases next_setRsp_inj ((exec_illegal s (by omega)).symm.trans h)

theorem status_ok (r : Result) : (Response.ok r).fields.status = 0 := by cases r <;> rfl

/-- Settles O35: an error's status is ticked for its cause, and a result's is 0, which every legal opcode has. -/
theorem statusesStayInTheTable : Obligations.StatusesStayInTheTable := by
  intro i s t r hexec hrsp
  obtain ⟨r', rfl⟩ := exists_setRsp_of_exec hexec
  obtain rfl : r' = r := Option.some.inj hrsp
  cases r' with
  | ok result => rw [status_ok]; exact zero_mem_of_opcode (opcode_lt_of_exec_ok hexec)
  | err e => exact status_mem_of_raises (exec_raises_iff.1 hexec)

/-! ## The responses are ones the rules allow -/

theorem fitsLane_toInt (v : Lane) : FitsLane v.toInt := ⟨BitVec.le_toInt v, BitVec.toInt_lt⟩

/-- Each cause gives a record within its bounds; a lane list has at most twelve entries. -/
theorem legal_of_raises {i : Instr} {e : ErrorRecord} (hwf : i.wellFormed = true) (h : Raises i e) :
    (Response.err e).Legal := by
  cases h with
  | @encodeTooLong n _ hn => exact ⟨hn, by have := n.isLt; omega⟩
  | encodeOffender hn hk =>
    obtain ⟨hlen, hbad, -⟩ := lowestOffender_sints_iff.1 hk
    rw [encode_wellFormed_iff.1 hwf, lanesRead_of_le hn] at hlen
    exact ⟨hlen.trans_le hn, hbad, fitsLane_toInt _⟩
  | @appendTooLong n _ _ hd hn => exact ⟨hn, by have := n.isLt; omega⟩
  | appendOffender hn hj =>
    obtain ⟨hlen, hbad, -⟩ := lowestOffender_sints_iff.1 hj
    rw [append_wellFormed_iff.1 hwf, lanesRead_of_le (by omega)] at hlen
    exact ⟨by omega, hbad, fitsLane_toInt _⟩
  | withIndex hd hout => exact ⟨hd, by omega, fitsLane_toInt _⟩
  | withOffender hd h0 hlt hv => exact ⟨by omega, hv, fitsLane_toInt _⟩
  | atIndex hd hout => exact ⟨hd, by omega, fitsLane_toInt _⟩
  | sliceRange hd hbad => exact ⟨hd, hbad, fitsLane_toInt _, fitsLane_toInt _⟩
  | bufferTooSmall hd hn => exact ⟨hn, hd⟩
  | malformedA _ hbad => exact ⟨hbad, hdr_le _⟩
  | malformedB _ hbad => exact ⟨hbad, hdr_le _⟩
  | illegal hop => exact ⟨hop, by have := i.opcode.isLt; omega⟩

/-- Whatever result the answer is, it is one the unit can give. -/
def YieldsLegal (x : Except ErrorRecord Result) : Prop := ∀ r, x = .ok r → (Response.ok r).Legal

theorem yieldsLegal_ok {r : Result} (h : (Response.ok r).Legal) : YieldsLegal (.ok r) := fun _ heq =>
  Except.ok.inj heq ▸ h

theorem yieldsLegal_bind {α : Type} {x : Except ErrorRecord α} {f : α → Except ErrorRecord Result}
    (h : ∀ y, x = .ok y → YieldsLegal (f y)) : YieldsLegal (x >>= f) := by
  cases x with
  | ok y => exact h y rfl
  | error e => exact fun r hr => absurd hr (by simp)

theorem yieldsLegal_decodeChecked {a : Addr} {which : Operand} {f : List Nat → Except ErrorRecord Result}
    (h : hdr a ≤ 12 → YieldsLegal (f (dec a))) : YieldsLegal (decodeChecked a which >>= f) := by
  rcases Nat.lt_or_ge 12 (hdr a) with hbad | hd
  · rw [decodeChecked_error which hbad]; exact fun r hr => absurd hr (by simp)
  · rw [decodeChecked_ok which hd]; exact h hd

/-- An address `Validate` and `Enc` give is canonical, if the length checked bounds the sequence. -/
theorem yieldsLegal_encodeChecked {L : Nat} {cs : List Int} (h : L ≤ 12 → cs.length ≤ 12) :
    YieldsLegal (encodeChecked L cs) := by
  intro r hr
  rcases encodeChecked_cases L cs with ⟨-, he⟩ | ⟨hL, -, he⟩ | ⟨-, k, -, -, he⟩ <;> rw [he] at hr <;> cases hr
  exact enc_canonical ((List.length_map _).trans_le (h hL))

theorem hdr_le_of_checkAddr {a : Addr} {which : Operand} (h : checkAddr a which = .ok ()) : hdr a ≤ 12 := by
  by_contra hbad
  rw [checkAddr_error which (by omega)] at h
  cases h

/-- A decoded tuple is in bounds, whichever of the two decoding commands answers it. -/
theorem dec_bounds {a : Addr} (h : hdr a ≤ 12) : (dec a).length ≤ 12 ∧ ∀ c ∈ dec a, c ≤ 1048575 :=
  ⟨length_dec_le h, fun _ => le_of_mem_dec⟩

theorem getD_dec_le (a : Addr) (k : Nat) : (dec a).getD k 0 ≤ 1048575 := by
  rcases Nat.lt_or_ge k (dec a).length with hk | hk
  · rw [List.getD_eq_getElem _ _ hk]; exact le_of_mem_dec (List.getElem_mem hk)
  · rw [List.getD_eq_default _ _ hk]; exact Nat.zero_le _

theorem legal_of_complete {x : Except ErrorRecord Result} {s : State} {r : Result}
    (h : complete x s = .next (s.setRsp (.ok r))) (hx : YieldsLegal x) : (Response.ok r).Legal := by
  cases x with
  | ok r' => exact next_setRsp_inj h ▸ hx r' rfl
  | error e => cases next_setRsp_inj h

theorem legal_of_exec_ok {i : Instr} {s : State} {r : Result} (hwf : i.wellFormed = true)
    (h : exec i s = .next (s.setRsp (.ok r))) : (Response.ok r).Legal := by
  cases i with
  | encode n coords =>
    exact legal_of_complete h (yieldsLegal_encodeChecked fun hn => (length_sints_of_le hwf hn).trans_le hn)
  | decode a => exact legal_of_complete h (yieldsLegal_decodeChecked fun hd => yieldsLegal_ok (dec_bounds hd))
  | decodeBuf n a =>
    exact legal_of_complete h (yieldsLegal_bind fun _ hcheck => yieldsLegal_bind fun _ _ =>
      yieldsLegal_ok (dec_bounds (hdr_le_of_checkAddr hcheck)))
  | dims a => exact legal_of_complete (x := .ok (.count (hdr a))) h (yieldsLegal_ok (hdr_le a))
  | atIndex a idx =>
    exact legal_of_complete h (yieldsLegal_decodeChecked fun _ => yieldsLegal_bind fun _ _ =>
      yieldsLegal_ok (getD_dec_le a _))
  | isZero a => exact legal_of_complete h (yieldsLegal_decodeChecked fun _ => yieldsLegal_ok trivial)
  | append n a extra =>
    exact legal_of_complete h (yieldsLegal_decodeChecked fun _ => yieldsLegal_encodeChecked fun hL => by
      rw [length_dec] at hL
      have hL' : hdr a + n.toNat ≤ 12 := hL
      rwa [length_ints_dec_append hwf (by omega)])
  | slice a lo hi =>
    exact legal_of_complete h (yieldsLegal_decodeChecked fun _ => yieldsLegal_bind fun _ _ =>
      yieldsLegal_encodeChecked fun hL => by rwa [length_ints])
  | withCoord a idx value =>
    exact legal_of_complete h (yieldsLegal_decodeChecked fun _ => yieldsLegal_bind fun _ _ =>
      yieldsLegal_encodeChecked fun hL => by rwa [List.length_set, length_ints])
  | equal a b => exact legal_of_complete (x := .ok (.flag (sameBits a b))) h (yieldsLegal_ok trivial)
  | contains a b =>
    exact legal_of_complete h (yieldsLegal_decodeChecked fun _ => yieldsLegal_decodeChecked fun _ =>
      yieldsLegal_ok trivial)
  | inRange n a pairs => exact legal_of_complete h (yieldsLegal_decodeChecked fun _ => yieldsLegal_ok trivial)
  | illegal12 | illegal13 | illegal14 | illegal15 => exact absurd (opcode_lt_of_exec_ok h) (by decide)

/-- Every response to a command word is one the unit can give. -/
theorem legal_of_exec {w : CmdWord} {s : State} {r : Response} (h : exec (decode w) s = .next (s.setRsp r)) : r.Legal := by
  cases r with
  | ok result => exact legal_of_exec_ok (decode_wellFormed w) h
  | err e => exact legal_of_raises (decode_wellFormed w) (exec_raises_iff.1 h)

/-- Settles O36: a legal address is canonical (`legal_of_exec`), and twelve coordinates end at bit 243. -/
theorem addressAnswersAreCanonical : Obligations.AddressAnswersAreCanonical := by
  intro w s t A hexec hrsp
  obtain ⟨r, rfl⟩ := exists_setRsp_of_exec hexec
  obtain rfl : r = .ok (.address A) := Option.some.inj hrsp
  have hA : Canonical A := legal_of_exec hexec
  have hd : hdr A ≤ 12 := hA.1
  exact ⟨hA, fun k hk => getLsbD_of_canonical hA (by omega)⟩

end Sys2Proof.Machine
end

section
/-! The clock edge: what a step does on each of its branches (`10_state.md` R29, `70_reset_and_hazards.md` R190, R191, R197,
R198). -/

namespace Sys2Proof.Machine

/-! ## One equation per branch of a step -/

theorem step_of_rst {s : State} (hrst : s.pins.rst = true) :
    step s = .next (s.passEdge.resetUnit.touchBuffer s.pins) := if_pos hrst

theorem step_of_offerBroken {s : State} (hrst : s.pins.rst = false) (hbroken : s.offerBroken s.pins = true) :
    step s = .refused .offerChanged := by
  simp [step, clockEdge, hrst, hbroken]

section
variable {s : State} (hrst : s.pins.rst = false) (hkept : s.offerBroken s.pins = false)
include hrst hkept

theorem step_retire {r : Response} (hr : s.rsp = some r) (hready : s.pins.rspReady = true) :
    step s = .next (((s.passEdge.retire r).touchBuffer s.pins).holdOffer s.pins) := by
  simp [step, clockEdge, hrst, hkept, hr, hready]

theorem step_hold {r : Response} (hr : s.rsp = some r) (hready : s.pins.rspReady = false) :
    step s = .next ((s.passEdge.touchBuffer s.pins).holdOffer s.pins) := by
  simp [step, clockEdge, hrst, hkept, hr, hready]

theorem step_issue (hr : s.rsp = none) (hvalid : s.pins.cmdValid = true) :
    step s = exec (decode s.pins.cmd) (s.passEdge.touchBuffer s.pins).takeOffer := by
  simp [step, clockEdge, hrst, hkept, hr, hvalid]

theorem step_idle (hr : s.rsp = none) (hvalid : s.pins.cmdValid = false) :
    step s = .next (s.passEdge.touchBuffer s.pins) := by
  simp [step, clockEdge, hrst, hkept, hr, hvalid]

/-- With `rst` low and no broken offer a step has a next state. -/
theorem exists_step_of_kept : ∃ t, step s = .next t := by
  cases hr : s.rsp with
  | some r =>
    cases hready : s.pins.rspReady with
    | true => exact ⟨_, step_retire hrst hkept hr hready⟩
    | false => exact ⟨_, step_hold hrst hkept hr hready⟩
  | none =>
    cases hvalid : s.pins.cmdValid with
    | true =>
      obtain ⟨r, hexec⟩ := exec_fills_slot (decode s.pins.cmd)
      exact ⟨_, (step_issue hrst hkept hr hvalid).trans (hexec _)⟩
    | false => exact ⟨_, step_idle hrst hkept hr hvalid⟩

end

/-! ## The branches as the statements write them -/

/-- The pins of a state whose next edge is on the list. -/
theorem pins_cons (s : State) (e : Edge) (rest : List Edge) : State.pins { s with inputs := e :: rest } = e := rfl

/-- An edge at which nobody touches the buffer issues on the state with the offer taken. -/
theorem step_offerEdge {s : State} (w : CmdWord) (rest : List Edge) (hr : s.rsp = none) (hoffered : s.offered = none) :
    step { s with inputs := offerEdge w :: rest } =
      exec (decode w) { s with inputs := rest, offered := none, edges := s.edges + 1 } := by
  rw [step_issue (s := { s with inputs := offerEdge w :: rest }) rfl (offer_kept (.inl hoffered)) hr rfl,
    State.touchBuffer_quiet _ rfl rfl]
  rfl

/-- Settles O46: the two clauses are `step_issue` and `step_offerEdge`. -/
theorem stepRunsTheOfferedCommand : Obligations.StepRunsTheOfferedCommand := by
  refine ⟨fun s i hr hrst hvalid hoffered hi => ?issue, fun s nbits w => ?placed⟩
  case issue =>
    rw [step_issue hrst (offer_kept (hoffered.imp_right fun h => ⟨hvalid, h⟩)) hr hvalid, hi]; rfl
  case placed => exact step_offerEdge (s := { s with rsp := none, offered := none }) _ s.inputs rfl rfl

/-- Settles O47: `step_retire`, field by field. -/
theorem stepRetiresTheResponse : Obligations.StepRetiresTheResponse := fun _ _ hr hrst hready hoffered =>
  step_retire hrst (offer_kept hoffered) hr hready

/-- Settles O48: the slot is full and not accepted (`step_hold`), or empty and nothing is offered (`step_idle`). -/
theorem stepWaitsOtherwise : Obligations.StepWaitsOtherwise := by
  rintro s hrst hoffered (⟨hfull, hready⟩ | ⟨hr, hvalid⟩)
  · obtain ⟨r, hr⟩ := Option.isSome_iff_exists.1 hfull
    exact ⟨_, step_hold hrst (offer_kept hoffered) hr hready, rfl, rfl, rfl, rfl, rfl, rfl, rfl⟩
  · have hnone : s.offered = none := hoffered.resolve_right fun h => by simp [hvalid] at h
    refine ⟨_, step_idle hrst (offer_kept hoffered) hr hvalid, rfl, rfl, ?_, rfl, rfl, rfl, rfl⟩
    rw [hvalid]; exact hnone

/-- Settles O49: `step_of_rst`, field by field. -/
theorem stepResetsTheUnit : Obligations.StepResetsTheUnit := fun _ => step_of_rst

/-- Settles O50: a broken offer is refused with `rst` low, and every other edge is one of the branches above. -/
theorem stepStopsOnlyOnAChangedOffer : Obligations.StepStopsOnlyOnAChangedOffer := by
  intro s
  rw [← offerBroken_iff]
  refine ⟨fun ⟨hrst, hbroken⟩ => step_of_offerBroken hrst hbroken, fun hgood => ?_⟩
  cases hrst : s.pins.rst with
  | true => exact ⟨_, step_of_rst hrst⟩
  | false => exact exists_step_of_kept hrst (by simpa [hrst] using hgood)

/-- Settles O55: `cmd_ready` and `rsp_valid` read the slot alone. -/
theorem outputPinsShowTheSlot : Obligations.OutputPinsShowTheSlot := by
  refine ⟨fun s rst => ⟨?ready, Option.isSome_iff_exists, fun r hr => ?response⟩, rfl, rfl⟩
  case ready => simp [State.cmdReady, and_comm]
  case response => rw [State.rspPins, hr]

/-- Settles O57: with `cmd_valid` low the branch of ISSUE is not taken, and no other reads `cmd`. -/
theorem commandPinsUnreadWithoutValid : Obligations.CommandPinsUnreadWithoutValid := by
  intro s e w rest hvalid
  simp only [step, pins_cons, clockEdge, State.offerBroken, State.holdOffer, hvalid, Bool.false_and]
  rfl

/-- Settles O58: an empty slot and empty lists meet every clause. -/
theorem resetMeetsTheInvariant : Obligations.ResetMeetsTheInvariant :=
  ⟨fun _ h => (Option.some_ne_none _ h.symm).elim, fun _ h => absurd h List.not_mem_nil,
    fun _ h => absurd h List.not_mem_nil, List.Pairwise.nil⟩

end Sys2Proof.Machine
end

section
/-! The decode buffer across steps, and what every step and every run keeps (`20_memory.md` R48 to R51,
`70_reset_and_hazards.md` R196). -/

namespace Sys2Proof.Machine

/-! ## Writes that land together -/

theorem mem_keys_iff {ws : LaneWrites} {i : Nat} : i ∈ ws.map Prod.fst ↔ ∃ v, (i, v) ∈ ws := by
  simp

/-- A cell written with one value only holds it. -/
theorem Buffer.read_commit_of_forall (n : Nat) (b : Buffer) {ws : LaneWrites} {i : Nat} {v : Lane} (hv : (i, v) ∈ ws)
    (hall : ∀ v', (i, v') ∈ ws → v' = v) : (b.commit n ws).read i = some v := by
  obtain ⟨v', hmem, hread⟩ := Buffer.read_commit_written n b (mem_keys_iff.2 ⟨v, hv⟩)
  rw [hread, hall v' hmem]

/-- Settles O53: `Buffer.read_commit_written` and `Buffer.read_commit_other`. -/
theorem sharedCellsHoldOneOfTheWrittenValues : Obligations.SharedCellsHoldOneOfTheWrittenValues :=
  fun n b _ _ =>
    ⟨fun h => Buffer.read_commit_written n b (mem_keys_iff.2 h), fun _ => Buffer.read_commit_of_forall n b,
      fun h => Buffer.read_commit_other n b fun hmem => (mem_keys_iff.1 hmem).elim h⟩

@[simp] theorem length_tupleWrites (cs : List Nat) : (tupleWrites cs).length = cs.length := by
  simp [tupleWrites]

theorem mem_tupleWrites_self {cs : List Nat} {i : Nat} (h : i < cs.length) :
    (i, BitVec.ofNat 64 (cs.getD i 0)) ∈ tupleWrites cs := mem_tupleWrites.2 ⟨h, rfl⟩

theorem not_mem_tupleWrites {cs : List Nat} {i : Nat} (h : cs.length ≤ i) (v : Lane) : (i, v) ∉ tupleWrites cs :=
  fun hmem => Nat.not_lt.2 h (mem_tupleWrites.1 hmem).1

/-- The lanes of one tuple leave each coordinate in its cell and touch no other. -/
theorem Buffer.read_commit_tupleWrites (n : Nat) (b : Buffer) (cs : List Nat) (i : Nat) :
    (b.commit n (tupleWrites cs)).read i = if i < cs.length then some (BitVec.ofNat 64 (cs.getD i 0)) else b.read i := by
  split
  · next h => exact Buffer.read_commit_of_forall n b (mem_tupleWrites_self h) fun _ hv => (mem_tupleWrites.1 hv).2
  · next h =>
    exact Buffer.read_commit_other n b fun hmem =>
      (mem_keys_iff.1 hmem).elim (not_mem_tupleWrites (Nat.not_lt.1 h))

/-- The lanes of two tuples at once: a shared cell holds one of its two values, any other cell of one of them that one's. -/
theorem Buffer.read_commit_two_tuples (n : Nat) (b : Buffer) (cs cs' : List Nat) (i : Nat) :
    (i < cs.length → i < cs'.length →
      (b.commit n (tupleWrites cs ++ tupleWrites cs')).read i = some (BitVec.ofNat 64 (cs.getD i 0)) ∨
        (b.commit n (tupleWrites cs ++ tupleWrites cs')).read i = some (BitVec.ofNat 64 (cs'.getD i 0))) ∧
    (i < cs.length → cs'.length ≤ i →
      (b.commit n (tupleWrites cs ++ tupleWrites cs')).read i = some (BitVec.ofNat 64 (cs.getD i 0))) ∧
    (cs.length ≤ i → i < cs'.length →
      (b.commit n (tupleWrites cs ++ tupleWrites cs')).read i = some (BitVec.ofNat 64 (cs'.getD i 0))) ∧
    (cs.length ≤ i → cs'.length ≤ i → (b.commit n (tupleWrites cs ++ tupleWrites cs')).read i = b.read i) := by
  refine ⟨fun h _ => ?shared, fun h h' => ?onlyFirst, fun h h' => ?onlySecond, fun h h' => ?neither⟩
  case shared =>
    obtain ⟨v, hmem, hread⟩ := Buffer.read_commit_written n b (ws := tupleWrites cs ++ tupleWrites cs')
      (mem_keys_iff.2 ⟨_, List.mem_append_left _ (mem_tupleWrites_self h)⟩)
    rw [hread]
    exact (List.mem_append.1 hmem).imp (fun hv => congrArg some (mem_tupleWrites.1 hv).2)
      fun hv => congrArg some (mem_tupleWrites.1 hv).2
  case onlyFirst =>
    exact Buffer.read_commit_of_forall n b (List.mem_append_left _ (mem_tupleWrites_self h)) fun _ hv =>
      (mem_tupleWrites.1 ((List.mem_append.1 hv).resolve_right (not_mem_tupleWrites h' _))).2
  case onlySecond =>
    exact Buffer.read_commit_of_forall n b (List.mem_append_right _ (mem_tupleWrites_self h')) fun _ hv =>
      (mem_tupleWrites.1 ((List.mem_append.1 hv).resolve_left (not_mem_tupleWrites h _))).2
  case neither =>
    exact Buffer.read_commit_other n b fun hmem => (mem_keys_iff.1 hmem).elim fun v hv =>
      (List.mem_append.1 hv).elim (not_mem_tupleWrites h v) (not_mem_tupleWrites h' v)

/-! ## Retiring a DECODE_BUF -/

/-- Settles O52: with no lane left over and every place picked, exactly the lanes of the tuple land. -/
theorem retiringDecodeBufWritesItsCells : Obligations.RetiringDecodeBufWritesItsCells := by
  intro s cs hr hrst hready hoffered hpending hothers hcommit
  have hpicked := picked_all (l := tupleWrites cs) fun k hk => hcommit k (by simpa using hk)
  have hstep := stepRetiresTheResponse s _ hr hrst hready hoffered
  rw [hpending, List.nil_append, hothers, List.append_nil, Response.writes, hpicked.1, hpicked.2] at hstep
  refine ⟨_, hstep, fun i hi => ?_, fun i hi => ?_, rfl⟩
  · exact (Buffer.read_commit_tupleWrites _ _ cs i).trans (if_pos hi)
  · exact (Buffer.read_commit_tupleWrites _ _ cs i).trans (if_neg (Nat.not_lt.2 hi))

/-- Settles O54: the lanes left over and the new ones either all wait or all land together
(`Buffer.read_commit_two_tuples`). -/
theorem lateLanesRaceWithTheNextResponse : Obligations.LateLanesRaceWithTheNextResponse := by
  intro s cs cs' hr hrst hready hoffered hpending hothers
  have hstep := stepRetiresTheResponse s _ hr hrst hready (.inl hoffered)
  rw [hpending, hothers, List.append_nil, Response.writes] at hstep
  refine ⟨fun hnone => ?wait, fun hall => ?together⟩
  case wait =>
    rw [hnone, picked_none, unpicked_none] at hstep
    exact ⟨_, hstep, fun _ => rfl, rfl⟩
  case together =>
    have hpicked := picked_all (l := tupleWrites cs ++ tupleWrites cs') fun k hk => hall k (by simpa using hk)
    rw [hpicked.1, hpicked.2] at hstep
    exact ⟨_, hstep, rfl, Buffer.read_commit_two_tuples _ _ cs cs'⟩

/-! ## What a step does to the slot and to the buffer -/

/-- Everything a step without a stop can do, with the answer of ISSUE named (`10_state.md` R29); `stepsTo_of_step` ties it to
`step`. -/
inductive StepsTo (s : State) : State → Prop
  | reset : s.pins.rst = true → StepsTo s (s.passEdge.resetUnit.touchBuffer s.pins)
  | retire {r : Response} : s.pins.rst = false → s.rsp = some r → s.pins.rspReady = true →
      StepsTo s (((s.passEdge.retire r).touchBuffer s.pins).holdOffer s.pins)
  | hold {r : Response} : s.rsp = some r → StepsTo s ((s.passEdge.touchBuffer s.pins).holdOffer s.pins)
  | issue {r : Response} : s.pins.rst = false → s.rsp = none → s.pins.cmdValid = true → answer s.pins.cmd = some r →
      StepsTo s ((s.passEdge.touchBuffer s.pins).takeOffer.setRsp r)
  | idle : s.pins.cmdValid = false → StepsTo s (s.passEdge.touchBuffer s.pins)

theorem stepsTo_of_step {s t : State} (h : step s = .next t) : StepsTo s t := by
  rcases step_cases h with ⟨hrst, rfl⟩ | ⟨hrst, -, hbranch⟩
  · exact .reset hrst
  rcases hbranch with ⟨r, hr, hready, rfl⟩ | ⟨r, hr, -, rfl⟩ | ⟨hr, hvalid, hexec⟩ | ⟨-, hvalid, rfl⟩
  · exact .retire hrst hr hready
  · exact .hold hr
  · obtain ⟨r, hanswer, hfill⟩ := exec_eq_answer s.pins.cmd
    obtain rfl := Host.Outcome.next.inj ((hfill _).symm.trans hexec)
    exact .issue hrst hr hvalid hanswer
  · exact .idle hvalid

/-- The lane is one of a DECODE_BUF response the host receives at the next edge (`20_memory.md` R50). -/
def ReceivesLane (s : State) (w : Nat × Lane) : Prop :=
  ∃ cs, s.rsp = some (.ok (.bufWrites cs)) ∧ s.pins.rst = false ∧ s.pins.rspReady = true ∧
    w.1 < cs.length ∧ w.2 = BitVec.ofNat 64 (cs.getD w.1 0)

/-- On every branch the world touches the buffer as the edge left it, with the lanes of a retired DECODE_BUF among those
waiting. -/
theorem step_touches_buffer {s t : State} (h : step s = .next t) :
    ∃ u : State, u.buffer = s.buffer ∧ (∀ w ∈ u.pending, w ∈ s.pending ∨ ReceivesLane s w) ∧
      t.buffer = (u.touchBuffer s.pins).buffer ∧ t.pending = (u.touchBuffer s.pins).pending := by
  cases stepsTo_of_step h with
  | @retire r hrst hr hready =>
    refine ⟨s.passEdge.retire r, rfl, fun w hw => (List.mem_append.1 hw).imp_right fun hmem => ?_, rfl, rfl⟩
    obtain ⟨cs, rfl, hlt, hval⟩ := mem_writes hmem
    exact ⟨cs, hr, hrst, hready, hlt, hval⟩
  | reset | hold | issue | idle => exact ⟨s.passEdge, rfl, fun _ => .inl, rfl, rfl⟩

theorem slot_of_step {s t : State} (h : step s = .next t) :
    t.rsp = s.rsp ∨ (s.rsp = none ∧ s.pins.cmdValid = true ∧ s.pins.rst = false ∧ t.rsp = answer s.pins.cmd) ∨
      (t.rsp = none ∧ (s.pins.rst = true ∨ s.pins.rspReady = true)) := by
  cases stepsTo_of_step h with
  | reset hrst => exact .inr (.inr ⟨rfl, .inl hrst⟩)
  | retire _ _ hready => exact .inr (.inr ⟨rfl, .inr hready⟩)
  | issue hrst hr hvalid hanswer => exact .inr (.inl ⟨hr, hvalid, hrst, hanswer.symm⟩)
  | hold | idle => exact .inl rfl

theorem received_of_step {s t : State} (h : step s = .next t) :
    t.received = s.received ∨
      ∃ r, s.rsp = some r ∧ s.pins.rst = false ∧ s.pins.rspReady = true ∧ t.received = s.received ++ [r] := by
  cases stepsTo_of_step h with
  | @retire r hrst hr hready => exact .inr ⟨r, hr, hrst, hready, rfl⟩
  | reset | hold | issue | idle => exact .inl rfl

theorem pending_of_step {s t : State} (h : step s = .next t) : ∀ w ∈ t.pending, w ∈ s.pending ∨ ReceivesLane s w := by
  obtain ⟨u, -, hpending, -, ht⟩ := step_touches_buffer h
  exact fun w hw => hpending w (mem_of_mem_unpicked (ht ▸ hw))

theorem cell_of_step {s t : State} (h : step s = .next t) (i : Nat) :
    t.buffer.read i = s.buffer.read i ∨
      ∃ v, t.buffer.read i = some v ∧ ((i, v) ∈ s.pins.others ∨ (i, v) ∈ s.pending ∨ ReceivesLane s (i, v)) := by
  obtain ⟨u, hbuffer, hpending, ht, -⟩ := step_touches_buffer h
  rw [ht, ← hbuffer]
  refine (u.read_touchBuffer s.pins i).imp_right fun ⟨v, hread, hv⟩ => ⟨v, hread, ?_⟩
  exact hv.elim (fun hmem => .inr (hpending _ hmem)) .inl

/-- Settles O51, clause by clause. -/
theorem onlyIssueRetireResetChangeTheSlot : Obligations.OnlyIssueRetireResetChangeTheSlot := fun _ _ h =>
  ⟨slot_of_step h, received_of_step h, cell_of_step h, pending_of_step h⟩

/-! ## The invariant -/

theorem legal_of_answer {w : CmdWord} {r : Response} (h : answer w = some r) : r.Legal := by
  obtain ⟨r', hanswer, hfill⟩ := exec_eq_answer w
  obtain rfl : r' = r := Option.some.inj (hanswer.symm.trans h)
  exact legal_of_exec (hfill State.reset)

theorem buffer_wf_of_step {s t : State} (hwf : s.buffer.wf) (h : step s = .next t) : t.buffer.wf := by
  obtain ⟨u, hbuffer, -, ht, -⟩ := step_touches_buffer h
  rw [ht]
  exact Buffer.commit_wf _ _ _ (hbuffer ▸ hwf)

/-- A lane of a legal DECODE_BUF response is a coordinate for one of the cells 0 to 11. -/
theorem lane_bounds_of_receivesLane {s : State} {w : Nat × Lane} (hlegal : ∀ r, s.rsp = some r → r.Legal)
    (h : ReceivesLane s w) : w.1 < 12 ∧ w.2.toNat ≤ 1048575 := by
  obtain ⟨cs, hr, -, -, hlt, hval⟩ := h
  obtain ⟨hlen, hcoords⟩ : cs.length ≤ 12 ∧ ∀ c ∈ cs, c ≤ 1048575 := hlegal _ hr
  refine ⟨hlt.trans_le hlen, ?_⟩
  rw [hval, List.getD_eq_getElem _ _ hlt, BitVec.toNat_ofNat]
  exact (Nat.mod_le _ _).trans (hcoords _ (List.getElem_mem hlt))

/-- Settles O59: what a step does to each of the four parts (O51) brings in answers, which are legal (`legal_of_answer`), and
lanes of the response in the slot, which was. -/
theorem everyStepKeepsTheInvariant : Obligations.EveryStepKeepsTheInvariant := by
  rintro s t ⟨hslot, hreceived, hpending, hbuffer⟩ h
  refine ⟨fun r hr => ?slot, fun r hr => ?received, fun w hw => ?pending, buffer_wf_of_step hbuffer h⟩
  case slot =>
    rcases slot_of_step h with hsame | ⟨-, -, -, hanswer⟩ | ⟨hnone, -⟩
    · exact hslot r (hsame ▸ hr)
    · exact legal_of_answer (hanswer ▸ hr)
    · simp [hnone] at hr
  case received =>
    rcases received_of_step h with hsame | ⟨r', hr', -, -, happend⟩
    · exact hreceived r (hsame ▸ hr)
    · rw [happend] at hr
      rcases List.mem_append.1 hr with hold | hnew
      · exact hreceived r hold
      · exact hslot r (List.mem_singleton.1 hnew ▸ hr')
  case pending => exact (pending_of_step h w hw).elim (hpending w) (lane_bounds_of_receivesLane hslot)

/-! ## Order -/

theorem inputs_of_step {s t : State} (h : step s = .next t) : t.inputs = s.inputs.tail := by
  cases stepsTo_of_step h <;> rfl

/-- Without a reset edge on the list the next edge has `rst` low; past the list's end the pins hold it low. -/
theorem rst_low_of_inputs {k : Nat} {s : State} (h : ∀ e ∈ s.inputs.take (k + 1), e.rst = false) :
    s.pins.rst = false := by
  unfold State.pins
  split
  · next e rest hinputs => exact h e (by simp [hinputs])
  · split <;> rfl

/-- A step without reset adds to the responses received and waiting the answer to the command it takes, if it takes one. -/
theorem responses_of_step {s t : State} (hrst : s.pins.rst = false) (h : step s = .next t) :
    (t.received ++ t.rsp.toList).map some = (s.received ++ s.rsp.toList).map some ++ s.taken.toList.map answer := by
  have hfull : ∀ {r}, s.rsp = some r → s.taken = none := fun hr => by simp [State.taken, State.cmdReady, hr]
  have hidle : s.pins.cmdValid = false → s.taken = none := fun hvalid => by simp [State.taken, hvalid]
  cases stepsTo_of_step h with
  | reset hhigh => simp [hrst] at hhigh
  | retire _ hr _ => simp [hfull hr, hr]
  | hold hr => simp [hfull hr]
  | issue _ hr hvalid hanswer => simp [State.taken, State.cmdReady, hr, hvalid, hrst, hanswer]
  | idle hvalid => simp [hidle hvalid]

theorem takenIn_succ {k : Nat} {s t : State} (h : step s = .next t) :
    takenIn (k + 1) s = s.taken.toList ++ takenIn k t := by
  simp only [takenIn, h]

/-- Settles O60: by induction on the number of steps, from any state; `responses_of_step` is the step. -/
theorem responsesAreTheAnswersInOrder : Obligations.ResponsesAreTheAnswersInOrder := by
  intro k
  induction k with
  | zero =>
    rintro s t - hrun
    obtain rfl : s = t := Host.Outcome.next.inj hrun
    simp [takenIn]
  | succ k ih =>
    intro s t hlow hrun
    obtain ⟨u, hstep, hrest⟩ := run_succ hrun
    have htail : u.inputs.take k = (s.inputs.take (k + 1)).tail := by
      rw [inputs_of_step hstep, List.tail_take_eq_take_tail, Nat.add_sub_cancel]
    have hlow' : ∀ e ∈ u.inputs.take k, e.rst = false := fun e he => hlow e (List.mem_of_mem_tail (htail ▸ he))
    rw [ih u t hlow' hrest, responses_of_step (rst_low_of_inputs hlow) hstep, takenIn_succ hstep, List.append_assoc,
      ← List.map_append]

/-- Settles O56: the offer is taken at the first edge (`step_offerEdge`) and its answer retired at the second. -/
theorem offeredCommandIsAnsweredOnce : Obligations.OfferedCommandIsAnsweredOnce := by
  intro s w e rest hr hoffered hrst hready
  obtain ⟨r, hanswer, hfill⟩ := exec_eq_answer w
  have hissue := (step_offerEdge w (e :: rest) hr hoffered).trans (hfill _)
  have hretire := step_retire
    (s := State.setRsp { s with inputs := e :: rest, offered := none, edges := s.edges + 1 } r)
    hrst (offer_kept (.inl rfl)) rfl hready
  exact ⟨_, r, (run_of_step (k := 1) hissue).trans (run_of_step (k := 0) hretire), hanswer, rfl, rfl, rfl⟩

end Sys2Proof.Machine
end
